-- ==== Sys2Proof/Word.lean ====
section
/-! DEFINITION. The value types of the core: bytes, port words and addresses, and one entry of the node
array. -/

namespace Sys2Proof

/-- One cell of a buffer, `10_state.md` R29, R30. -/
abbrev Byte := BitVec 8

/-- One register or window word on the slave port, `10_state.md` section 8. -/
abbrev Word := BitVec 32

/-- A byte address on the slave port: 20 bits, `20_memory.md` R62. -/
abbrev Addr := BitVec 20

/-- One entry of the node array `N`: the six fields of `10_state.md` R23 at the widths of that rule. -/
structure Node where
  /-- Index of the left child, or `NONE` = 511. -/
  leftChild : BitVec 9
  /-- Index of the right child, or `NONE` = 511. -/
  rightChild : BitVec 9
  /-- 0: not attached; otherwise the parent is `parentOffset + 255` (R24). -/
  parentOffset : BitVec 8
  /-- Accumulated weight, `NODE_FREQ_W` = 40 bits. -/
  frequency : BitVec 40
  /-- The transmittable pattern (leaves only). -/
  codeBits : BitVec 9
  /-- The number of bits in `codeBits` (leaves only). -/
  codeLength : BitVec 4
  deriving DecidableEq, Repr, Inhabited

end Sys2Proof
end

