-- ==== Sys2Proof/Syntax.lean ====
section
/-! DEFINITION. The commands of `30_encoding.md` R99: one constructor per row of spec/opcode_table.json. A
command word has no operand fields; the operands are the registers and buffers its rule names. -/

namespace Sys2Proof

/-- The command set, `30_encoding.md` R99. -/
inductive Instr where
  /-- `NOP`, `45_system.md` R188. -/
  | nop
  /-- `BUILD`, `40_build_tree.md` R120. -/
  | build
  /-- `COMPRESS`, `43_compress.md` R160. -/
  | compress
  /-- `DECOMPRESS`, `44_decompress.md` R170. -/
  | decompress
  deriving DecidableEq, Repr

end Sys2Proof
end

