-- ==== Sys2Proof/Decode.lean ====
section
/-! DEFINITION. The command decoder and encoder, written from the table of `30_encoding.md` R99: a word `w`
selects a row when `w & mask == match`; every other word is illegal (R100) and is rejected by name. -/

namespace Sys2Proof

/-- Why a word is no command, `30_encoding.md` R100. -/
inductive DecodeError where
  /-- `OP` above 0x03, or any of bits 31:8 set. -/
  | reservedOpcode
  deriving DecidableEq, Repr

/-- One row of the command table: match, mask and the command. -/
structure OpcodeRow where
  pattern : Word
  mask : Word
  command : Instr
  deriving DecidableEq, Repr

/-- The command table, `30_encoding.md` R99. -/
def opcodeTable : List OpcodeRow :=
  [ { pattern := 0x00000000, mask := 0xFFFFFFFF, command := .nop },
    { pattern := 0x00000001, mask := 0xFFFFFFFF, command := .build },
    { pattern := 0x00000002, mask := 0xFFFFFFFF, command := .compress },
    { pattern := 0x00000003, mask := 0xFFFFFFFF, command := .decompress } ]

/-- `w & mask == match`, `30_encoding.md` R99. -/
def OpcodeRow.selects (r : OpcodeRow) (w : Word) : Bool :=
  w &&& r.mask == r.pattern

/-- The command a word written to `CMD` stands for, `30_encoding.md` R99, R100. -/
def decode (w : Word) : Except DecodeError Instr :=
  match opcodeTable.find? (·.selects w) with
  | some r => .ok r.command
  | none => .error .reservedOpcode

/-- The word that issues a command: format `C`, `OP` in bits 7:0, bits 31:8 zero (`30_encoding.md` R99). -/
def encode : Instr → Word
  | .nop => 0#24 ++ 0x00#8
  | .build => 0#24 ++ 0x01#8
  | .compress => 0#24 ++ 0x02#8
  | .decompress => 0#24 ++ 0x03#8

/-- The command read from the table's own numbering of bits: a command is one 32-bit word. -/
def decodeTableWord (nbits w : Nat) : Option Instr :=
  match decode (BitVec.ofNat 32 (w % 2 ^ nbits)) with
  | .ok i => some i
  | .error _ => none

end Sys2Proof
end

