-- ==== Sys2Proof/Config.lean ====
section
/-! DEFINITION. What the hardware's build fixes and the spec leaves open: the frequency table, and the free
values that stand wherever the spec says "unspecified". None of the four opaque constants has a body, so no
proof can know a value of it. -/

namespace Sys2Proof.Config

/-- `NONE`, the child field of a node without that child: `00_scope.md` R9, decision D5. -/
abbrev noChild : BitVec 9 := 511#9

/-- `FREQ[0..255]` of the machine `State.reset` describes. OPEN in the spec (`00_scope.md` R9, `10_state.md`
R28, decision D7): any 256 values below `2^32`. State carries the table, so a claim about every state is a
claim about every table (log entry 1). -/
opaque freq : Vector Word 256

/-- FREE VALUE: what `IBUF[j]` holds while nothing has been written to it, per draw (`10_state.md` R43;
log entry 3). Arguments: the draw, then the index. -/
opaque ibufFree : Nat → Nat → Byte

/-- FREE VALUE: what `OBUF[j]` holds where no command left a result, per draw (`10_state.md` R43,
`60_exceptions.md` R204; log entries 3 and 4). Arguments: the draw, then the index. -/
opaque obufFree : Nat → Nat → Byte

/-- FREE VALUE: what `N[i]` holds before a BUILD, per draw (`10_state.md` R43, `20_memory.md` R64; log
entry 5). Arguments: the draw, then the index. -/
opaque nodeFree : Nat → Nat → Node

end Sys2Proof.Config
end

