-- ==== Sys2Proof/Machine/State.lean ====
section
/-! DEFINITION. The state of the core as `10_state.md` R44 lists it, the host steps still to come, the
reasons a step can stop, and the state after reset. -/

namespace Sys2Proof.Machine

/-- One step of the host, `20_memory.md` R66, or a pulse on the reset input, `70_reset_and_hazards.md` R230. -/
inductive HostStep where
  /-- `MemRead(addr, n)`. -/
  | memRead (addr : Addr) (n : Nat)
  /-- `MemWrite(addr, n, v)`: stores the low `n` bytes of `v`. -/
  | memWrite (addr : Addr) (n : Nat) (v : Word)
  /-- `rst` asserted and released. -/
  | rst
  deriving DecidableEq, Repr

/-- A byte memory. `cells` lists the cells that hold a specified value, addresses strictly rising (`Memory.wf`).
A cell that is not listed has no value of its own: reading it gives the free value of draw `fill` (log entry 3). -/
structure Memory where
  cells : List Host.Cell
  fill : Nat
  deriving DecidableEq, Repr

/-- The node array. `contents` is `none` until a BUILD has written it (`10_state.md` R43); reading it then gives
the free value of draw `fill` (log entry 5). -/
structure NodeMemory where
  contents : Option (List Node)
  fill : Nat
  deriving DecidableEq, Repr

/-- The state of the machine: `10_state.md` R44, plus the table it was built with (log entry 1) and the
model's own `pending` and `rdata` (log entry 2). Register fields have the implemented width; the bits a
register does not implement read 0 (section 8 of `10_state.md`). -/
structure State where
  /-- `CMD`, R34: the last value written. -/
  cmd : Word
  /-- `STATUS.BUILT`, R35. -/
  built : Bool
  /-- `STATUS.BUSY`, R35. -/
  busy : Bool
  /-- `STATUS.PASS`, R35. `STATUS.ERR` is computed from `errcode`. -/
  pass : Bool
  /-- `ERRCODE`, R36: `KIND` in bits 7:0, `CAUSE` in bits 15:8. -/
  errcode : BitVec 16
  /-- `IN_LEN`, R37. -/
  inLen : BitVec 16
  /-- `OUT_LEN`, R38. -/
  outLen : BitVec 18
  /-- `BITLEN`, R39. -/
  bitLen : BitVec 20
  /-- `NODE_COUNT`, R40. -/
  nodeCount : BitVec 9
  /-- `N[0..510]`, R22. -/
  nodes : NodeMemory
  /-- `IBUF[0..65535]`, R29. -/
  ibuf : Memory
  /-- `OBUF[0..262143]`, R30. -/
  obuf : Memory
  /-- `FREQ[0..255]`, R28: configuration; no step writes it. -/
  freq : Vector Word 256
  /-- The model's own: the host steps still to come, the next one first. -/
  pending : List HostStep
  /-- The model's own: the bytes the latest `MemRead` returned, lowest address first; empty before one. -/
  rdata : List Byte
  deriving DecidableEq, Repr

/-- The errors a command can end in, `60_exceptions.md` R201. An error is no stop of the model: `State.raise`
gives the state after it. -/
inductive CommandError where
  /-- `InvalidInput(FirstByteHighBit)`, COMPRESS. -/
  | firstByteHighBit
  /-- `MalformedStream(EmptyInput)`, DECOMPRESS. -/
  | emptyInput
  /-- `MalformedStream(PaddingExceedsBits)`, DECOMPRESS. -/
  | paddingExceedsBits
  /-- `MalformedStream(TreeWalkOverrun)`, DECOMPRESS. -/
  | treeWalkOverrun
  /-- `MalformedStream(EscapeOverrun)`, DECOMPRESS. -/
  | escapeOverrun
  /-- `SequenceError(NotBuilt)`, COMPRESS and DECOMPRESS. -/
  | notBuilt
  /-- `SequenceError(AlreadyBuilt)`, BUILD. -/
  | alreadyBuilt
  /-- `IllegalCommand(ReservedOpcode)`, any other command word. -/
  | reservedOpcode
  deriving DecidableEq, Repr

/-- Why the machine stops with a fault. -/
inductive Fault where
  /-- A host access to an address of an unmapped range of `20_memory.md` R62 (R75, U9). Raised by the port, by no
  command. Safe: the model takes no step, and the spec gives none. -/
  | unmappedAddress
  deriving DecidableEq, Repr

/-- Why the model gives a step no meaning. -/
inductive Refusal where
  /-- A command without a meaning in the model. No command is left so. Safe. -/
  | notModelled (mnemonic : String)
  /-- A host access whose width is not the one its region takes (`20_memory.md` R70, U9). Raised by the port, by no
  command. Safe: the spec refuses the access. -/
  | accessWidth
  /-- A host access to a word region at an address that is no multiple of 4 (`20_memory.md` R70, U9). Raised by the
  port, by no command. Safe: the spec refuses the access. -/
  | misaligned
  /-- A host transaction while `STATUS.BUSY = 1` (`20_memory.md` R66: "can occur only while `STATUS.BUSY = 0`").
  Raised by the port; no run reaches it, since every command ends with `BUSY = 0`. Safe. -/
  | portBusy
  deriving DecidableEq, Repr

/-- A memory none of whose cells holds a specified value, at its first draw. -/
def Memory.unwritten : Memory := { cells := [], fill := 0 }

/-- The state right after the first reset, `10_state.md` R43: every register 0, the memories unspecified, nothing
pending. -/
def State.reset : State :=
  { cmd := 0#32, built := false, busy := false, pass := false, errcode := 0#16, inLen := 0#16, outLen := 0#18, bitLen := 0#20,
    nodeCount := 0#9, nodes := { contents := none, fill := 0 }, ibuf := Memory.unwritten, obuf := Memory.unwritten,
    freq := Config.freq, pending := [], rdata := [] }

end Sys2Proof.Machine
end

