-- ==== Sys2Proof/Machine/Flags.lean ====
section
/-! DEFINITION. The flag-like values of `10_state.md` R33: the error codes, the words the status registers read as,
and the flag and padding fields of a stream's header byte. -/

namespace Sys2Proof.Machine

/-- `ERRCODE.KIND` of an error, `60_exceptions.md` R201. -/
def CommandError.kind : CommandError → BitVec 8
  | .firstByteHighBit => 1
  | .emptyInput => 2
  | .paddingExceedsBits => 2
  | .treeWalkOverrun => 2
  | .escapeOverrun => 2
  | .notBuilt => 3
  | .alreadyBuilt => 3
  | .reservedOpcode => 4

/-- `ERRCODE.CAUSE` of an error, `60_exceptions.md` R201. -/
def CommandError.cause : CommandError → BitVec 8
  | .firstByteHighBit => 1
  | .emptyInput => 1
  | .paddingExceedsBits => 2
  | .treeWalkOverrun => 3
  | .escapeOverrun => 4
  | .notBuilt => 1
  | .alreadyBuilt => 2
  | .reservedOpcode => 1

/-- The value of `ERRCODE`: `(CAUSE << 8) | KIND`, `60_exceptions.md` R201. -/
def CommandError.code (e : CommandError) : BitVec 16 :=
  e.cause ++ e.kind

/-- `ERRCODE.KIND`, bits 7:0, `10_state.md` R36. -/
def State.errKind (s : State) : BitVec 8 :=
  s.errcode.extractLsb' 0 8

/-- `STATUS.ERR` "equals `ERRCODE.KIND != 0` at all times", `10_state.md` R35. -/
def State.err (s : State) : Bool :=
  s.errKind != 0#8

/-- The word `STATUS` reads as, `10_state.md` R35: bit 0 `BUILT`, bit 1 `BUSY`, bit 2 `ERR`, bit 3 `PASS`. -/
def State.statusWord (s : State) : Word :=
  0#28 ++ (BitVec.ofBool s.pass ++ (BitVec.ofBool s.err ++ (BitVec.ofBool s.busy ++ BitVec.ofBool s.built)))

/-- `FLAG`, bit 7 of byte 0 of a buffer, `30_encoding.md` R90, R92. -/
def headerFlag (h : Byte) : Bool :=
  h.getLsbD 7

/-- `PAD`, bits 3:0 of the header byte, `30_encoding.md` R90, R92. -/
def headerPad (h : Byte) : Nat :=
  (h.extractLsb' 0 4).toNat

/-- The padding count of `43_compress.md` R166: `(8 - remainder) mod 8` if the remainder is not 0, else 0. -/
def padCount (totalBits : Nat) : Nat :=
  let remainder := totalBits % 8
  if remainder ≠ 0 then (8 - remainder) % 8 else 0

/-- The header COMPRESS makes of the placeholder `h`, `43_compress.md` R160, R166: low 4 bits the padding count,
bit 7 set, bits 6:4 kept. -/
def finishHeader (totalBits : Nat) (h : Byte) : Byte :=
  (h &&& 0x70#8) ||| BitVec.ofNat 8 (padCount totalBits) ||| 0x80#8

end Sys2Proof.Machine
end

