-- ==== Sys2Proof/Machine/Ops.lean ====
section
/-! DEFINITION. The named operations over memory and registers: reading and writing buffer cells, reading `N`, the
result clear and the start of a command, the end of a command, taking an error and returning from one, and reset. -/

namespace Sys2Proof.Machine

/-! ### Byte memories -/

/-- The listed value at an address, if there is one. -/
def lookupCell : List Host.Cell → Nat → Option Byte
  | [], _ => none
  | (a, b) :: rest, j => if j = a then some b else lookupCell rest j

/-- Set one cell, keeping the addresses rising. -/
def insertCell (j : Nat) (v : Byte) : List Host.Cell → List Host.Cell
  | [] => [(j, v)]
  | (a, b) :: rest =>
    if j < a then (j, v) :: (a, b) :: rest
    else if j = a then (j, v) :: rest
    else (a, b) :: insertCell j v rest

/-- The bytes of a list as cells from address `j` upward. -/
def cellsFrom : Nat → List Byte → List Host.Cell
  | _, [] => []
  | j, b :: bs => (j, b) :: cellsFrom (j + 1) bs

/-- The addresses rise strictly from `lo` on and stay below `size`. -/
def cellsRise (size : Nat) : Nat → List Host.Cell → Bool
  | _, [] => true
  | lo, (a, _) :: rest => decide (lo ≤ a) && decide (a < size) && cellsRise size (a + 1) rest

/-- The canonical form of a memory of `size` cells: every listed address exists, and the list rises strictly. An
unlisted cell has no value of its own, so no entry repeats one. -/
def Memory.wf (size : Nat) (m : Memory) : Bool :=
  cellsRise size 0 m.cells

/-- The specified value of a cell, if it has one. -/
def Memory.get? (m : Memory) (j : Nat) : Option Byte :=
  lookupCell m.cells j

/-- Store one byte. -/
def Memory.write (m : Memory) (j : Nat) (v : Byte) : Memory :=
  { m with cells := insertCell j v m.cells }

/-- Every cell unspecified: a fresh draw of the whole memory. -/
def Memory.forget (m : Memory) : Memory :=
  { cells := [], fill := m.fill + 1 }

/-- The bytes of a result from cell 0 on, every other cell unspecified (`60_exceptions.md` R204 and
`70_reset_and_hazards.md` R236; U5). -/
def Memory.holdResult (m : Memory) (bs : List Byte) : Memory :=
  { cells := cellsFrom 0 bs, fill := m.fill + 1 }

/-! ### Reading the state's memories -/

/-- `IBUF[j]`. An unwritten cell reads a free value, the same one at every read (`20_memory.md` R72; U6). -/
def State.ibufByte (s : State) (j : Nat) : Byte :=
  (s.ibuf.get? j).getD (Config.ibufFree s.ibuf.fill j)

/-- `OBUF[j]`. A cell with no result reads a free value (U5, U6). -/
def State.obufByte (s : State) (j : Nat) : Byte :=
  (s.obuf.get? j).getD (Config.obufFree s.obuf.fill j)

/-- `N[i]`. Before a BUILD every field reads a free value (`20_memory.md` R64; U6). -/
def State.node (s : State) (i : Nat) : Node :=
  match s.nodes.contents with
  | some ns => ns[i]?.getD (Config.nodeFree s.nodes.fill i)
  | none => Config.nodeFree s.nodes.fill i

/-! ### Commands: start, end, error -/

/-- The result clear of `45_system.md` R187, which is also the return from an error (`60_exceptions.md` R209). -/
def State.clearResults (s : State) : State :=
  { s with errcode := 0#16, outLen := 0#18, bitLen := 0#20, pass := false }

/-- What every command does first: `BUSY <- 1` (`45_system.md` R185) and the result clear (R187). -/
def State.beginCommand (s : State) : State :=
  { s.clearResults with busy := true }

/-- The end of a command: `BUSY <- 0` (`45_system.md` R185). -/
def State.endCommand (s : State) : State :=
  { s with busy := false }

/-- `raise Kind(cause)`, `60_exceptions.md` R204: the error code, the result registers zero, `BUSY` 0, and every cell
of `OBUF` unspecified (log entry 4). -/
def State.raise (e : CommandError) (s : State) : State :=
  { s with errcode := e.code, outLen := 0#18, bitLen := 0#20, pass := false, busy := false, obuf := s.obuf.forget }

/-- A successful COMPRESS or DECOMPRESS: the result bytes in `OBUF[0 .. OUT_LEN-1]`, `BITLEN` and `PASS` as given. -/
def State.deliver (bytes : List Byte) (bits : Nat) (pass : Bool) (s : State) : State :=
  { s with obuf := s.obuf.holdResult bytes, outLen := BitVec.ofNat 18 bytes.length, bitLen := BitVec.ofNat 20 bits,
           pass := pass, busy := false }

/-- A successful BUILD: `N` written, `BUILT` and `NODE_COUNT` set (`40_build_tree.md` R128). -/
def State.deliverTree (ns : List Node) (s : State) : State :=
  { s with nodes := { s.nodes with contents := some ns }, built := true, nodeCount := 511#9, busy := false }

/-! ### Reset -/

/-- `rst`, `70_reset_and_hazards.md` R230 and `10_state.md` R43: every register 0, `N`, `IBUF` and `OBUF` unspecified,
`FREQ` unaffected. The host's own steps and data are not the core's (log entry 9). -/
def State.applyReset (s : State) : State :=
  { cmd := 0#32, built := false, busy := false, pass := false, errcode := 0#16, inLen := 0#16, outLen := 0#18, bitLen := 0#20,
    nodeCount := 0#9, nodes := { contents := none, fill := s.nodes.fill + 1 }, ibuf := s.ibuf.forget,
    obuf := s.obuf.forget, freq := s.freq, pending := s.pending, rdata := s.rdata }

end Sys2Proof.Machine
end

