-- ==== Sys2Proof/Machine/Operands.lean ====
section
/-! DEFINITION. The operands and results of the commands (`10_state.md` R31): the input bytes, the result bytes and
the code of a symbol. -/

namespace Sys2Proof.Machine

/-- The payload or stream a command works on, `IBUF[0 .. IN_LEN-1]`: `10_state.md` R29. -/
def State.inputBytes (s : State) : List Byte :=
  (List.range s.inLen.toNat).map s.ibufByte

/-- The result of the last command, `OBUF[0 .. OUT_LEN-1]`: `10_state.md` R30. -/
def State.outputBytes (s : State) : List Byte :=
  (List.range s.outLen.toNat).map s.obufByte

/-- `N[b].code_bits`, the stored code of a symbol: `10_state.md` R27. -/
def codeBitsOf (node : Nat → Node) (b : Byte) : BitVec 9 :=
  (node b.toNat).codeBits

/-- `N[b].code_length`: `10_state.md` R27. -/
def codeLengthOf (node : Nat → Node) (b : Byte) : Nat :=
  (node b.toNat).codeLength.toNat

/-- A node with both children absent: `44_decompress.md` R176, R180. -/
def isLeaf (n : Node) : Bool :=
  n.leftChild == Config.noChild && n.rightChild == Config.noChild

end Sys2Proof.Machine
end

