-- ==== Sys2Proof/Machine/Build.lean ====
section
/-! DEFINITION. `BUILD`: the TreeBuilder of `40_build_tree.md` and the CodeTable derivation of `41_code_table.md`, as
functions from the frequency table to the node array, and the command's meaning. -/

namespace Sys2Proof.Machine

/-! ### Init -/

/-- A leaf after Init: `40_build_tree.md` R121. -/
def initLeaf (f : Word) : Node :=
  { leftChild := Config.noChild, rightChild := Config.noChild, parentOffset := 0#8, frequency := f.setWidth 40,
    codeBits := 0#9, codeLength := 0#4 }

/-- An internal node after Init: `40_build_tree.md` R121. -/
def initInternal : Node :=
  { leftChild := Config.noChild, rightChild := Config.noChild, parentOffset := 0#8, frequency := 0#40,
    codeBits := 0#9, codeLength := 0#4 }

/-- The 255 internal nodes after Init. -/
def initInternals : List Node :=
  List.replicate 255 initInternal

/-- Init, `40_build_tree.md` R121: 256 leaves with their table weights, 255 internal nodes. -/
def initNodes (freq : Vector Word 256) : List Node :=
  freq.toList.map initLeaf ++ initInternals

/-- `N[i]` while BUILD runs. Every index a rule of BUILD reads is below 511 (`40_build_tree.md` R122; log entry 7); at any
other index this gives a fresh internal node. -/
def nodeAt (N : List Node) (i : Nat) : Node :=
  N.getD i initInternal

/-! ### SelectPair -/

/-- A node the selection scan can choose: its index and its weight. -/
structure Slot where
  index : Nat
  frequency : BitVec 40
  deriving DecidableEq, Repr

/-- The unattached nodes of a list whose first node has index `i`, in index order: `40_build_tree.md` R123. -/
def unattachedFrom : Nat → List Node → List Slot
  | _, [] => []
  | i, n :: ns =>
    if n.parentOffset = 0#8 then { index := i, frequency := n.frequency } :: unattachedFrom (i + 1) ns
    else unattachedFrom (i + 1) ns

/-- The unattached nodes below `k` (= `node_count`), in index order. -/
def unattached (N : List Node) (k : Nat) : List Slot :=
  unattachedFrom 0 (N.take k)

/-- One candidate of the replacement scan, `40_build_tree.md` R124: the slot with the larger frequency is replaceable, `s2` when
the two are equal (decision D4); a candidate replaces it when it is strictly smaller. -/
def considerSlot (slots : Slot × Slot) (c : Slot) : Slot × Slot :=
  if slots.1.frequency > slots.2.frequency then
    if c.frequency < slots.1.frequency then (c, slots.2) else slots
  else
    if c.frequency < slots.2.frequency then (slots.1, c) else slots

/-- SelectPair, `40_build_tree.md` R123 and R124: the opening pair is the first two unattached nodes, then every later
unattached node below `node_count` is a candidate, in index order. `none` only where fewer than two nodes are unattached, which R122
rules out. -/
def selectPair (N : List Node) (k : Nat) : Option (Nat × Nat) :=
  match unattached N k with
  | s1 :: s2 :: candidates =>
    let slots := candidates.foldl considerSlot (s1, s2)
    some (slots.1.index, slots.2.index)
  | _ => none

/-! ### Merge -/

/-- Node `k` joins the pair: `40_build_tree.md` R126. `s1` becomes the right child, `s2` the left; the sum is exact (R127). -/
def joinPair (N : List Node) (k s1 s2 : Nat) : List Node :=
  N.modify k fun n =>
    { n with frequency := (nodeAt N s1).frequency + (nodeAt N s2).frequency,
             rightChild := BitVec.ofNat 9 s1, leftChild := BitVec.ofNat 9 s2 }

/-- `N[s].parent_offset <- k - 255`: `40_build_tree.md` R126. -/
def attach (k s : Nat) (N : List Node) : List Node :=
  N.modify s fun n => { n with parentOffset := BitVec.ofNat 8 (k - 255) }

/-- Merge, `40_build_tree.md` R126, with `node_count = k`. -/
def mergeNodes (N : List Node) (k s1 s2 : Nat) : List Node :=
  attach k s2 (attach k s1 (joinPair N k s1 s2))

/-- One round of the merge loop: `40_build_tree.md` R120, R122. -/
def mergeRound (N : List Node) (k : Nat) : List Node :=
  match selectPair N k with
  | some (s1, s2) => mergeNodes N k s1 s2
  | none => N

/-- The array after `r` rounds of the merge loop, `node_count` having gone from 256 to `256 + r`: `40_build_tree.md` R122. -/
def mergeRounds (N : List Node) : Nat → List Node
  | 0 => N
  | r + 1 => mergeRound (mergeRounds N r) (256 + r)

/-! ### DeriveCode -/

/-- The walk of DeriveCode from node `n` to the root, `41_code_table.md` R140: the accumulated `value` and `steps`. The parent index
rises at every step, so 255 rounds reach the root from any leaf (`45_system.md` R191). -/
def walkUp (N : List Node) : Nat → Nat → Nat → Nat → Nat × Nat
  | 0, _, value, steps => (value, steps)
  | fuel + 1, n, value, steps =>
    let off := (nodeAt N n).parentOffset
    if off = 0#8 then (value, steps)
    else
      let p := off.toNat + 255
      let bit := if (nodeAt N p).rightChild.toNat = n then 1 else 0
      walkUp N fuel p ((value <<< 1) ||| bit) (steps + 1)

/-- DeriveCode(i), `41_code_table.md` R140, R143: the pair (`code_bits`, `code_length`) of leaf `i`. -/
def deriveCode (N : List Node) (i : Nat) : BitVec 9 × BitVec 4 :=
  let (value, steps) := walkUp N 255 i 0 0
  if steps ≥ 8 then (BitVec.ofNat 9 (i <<< 1), 9#4)
  else (BitVec.ofNat 9 ((value <<< 1) ||| 1), BitVec.ofNat 4 (steps + 1))

/-- Node `i` with its code: the leaves get one, internal nodes keep 0 (`10_state.md` R23). -/
def withCode (N : List Node) (n : Node) (i : Nat) : Node :=
  if i < 256 then { n with codeBits := (deriveCode N i).1, codeLength := (deriveCode N i).2 } else n

/-- DeriveCode for every leaf: `40_build_tree.md` R128. Each code depends only on the tree, so the order does not matter. -/
def assignCodes (N : List Node) : List Node :=
  N.zipIdx.map fun (n, i) => withCode N n i

/-! ### The command -/

/-- The tree without codes: Init and 255 merges, `40_build_tree.md` R120. -/
def buildTree (freq : Vector Word 256) : List Node :=
  mergeRounds (initNodes freq) 255

/-- The node array a BUILD makes of a frequency table: `40_build_tree.md` R120. -/
def buildNodes (freq : Vector Word 256) : List Node :=
  assignCodes (buildTree freq)

/-- `BUILD`, `40_build_tree.md` R120. -/
def execBuild (s : State) : Host.Outcome State Fault Refusal :=
  let s := s.beginCommand
  if s.built then .next (s.raise .alreadyBuilt)
  else .next (s.deliverTree (buildNodes s.freq))

end Sys2Proof.Machine
end

