-- ==== Sys2Proof/Machine/BitCodec.lean ====
section
/-! DEFINITION. The bit writer and the bit reader of `42_bitcodec.md`, over byte buffers as lists: bit position `q` is
bit `q mod 8` of byte `q >> 3` (`00_scope.md` R12, `20_memory.md` R69). -/

namespace Sys2Proof.Machine

/-- Extend a buffer with zero bytes until byte index `j` exists: `42_bitcodec.md` R150, R151. -/
def growTo (B : List Byte) (j : Nat) : List Byte :=
  B ++ List.replicate (j + 1 - B.length) 0#8

/-- One round of the PutBits loop: grow, then OR the bit in. -/
def putBit (B : List Byte) (q : Nat) (b : Bool) : List Byte :=
  let B := growTo B (q / 8)
  if b then B.modify (q / 8) (· ||| (1#8 <<< (q % 8))) else B

/-- The buffer after `PutBits(B, off, v, n)`: bits `v[0]`, ..., `v[n-1]` at positions `off`, ..., `off + n - 1`, in that
order. `42_bitcodec.md` R150 (log entry 8). -/
def putBits (B : List Byte) (off : Nat) (v : BitVec 9) : Nat → List Byte
  | 0 => B
  | n + 1 => putBit (putBits B off v n) (off + n) (v.getLsbD n)

/-- `GetBit(B, q)`: `42_bitcodec.md` R153. Its precondition is `q >> 3 < length(B)`; beyond the buffer, where no rule reads,
the expression gives false. -/
def getBit (B : List Byte) (q : Nat) : Bool :=
  (B.getD (q / 8) 0#8).getLsbD (q % 8)

/-- `GetByte8(B, q)`: the next eight bits, the first one read becoming bit 0. `42_bitcodec.md` R154. -/
def getByte8 (B : List Byte) (q : Nat) : Byte :=
  (List.range 8).foldl (fun r k => r ||| ((BitVec.ofBool (getBit B (q + k))).setWidth 8 <<< k)) 0#8

end Sys2Proof.Machine
end

