-- ==== Sys2Proof/Machine/Compress.lean ====
section
/-! DEFINITION. `COMPRESS`: `43_compress.md`. -/

namespace Sys2Proof.Machine

/-- The sum of the code lengths, `43_compress.md` R162. -/
def totalBits (node : Nat → Node) (p : List Byte) : Nat :=
  (p.map (codeLengthOf node)).sum

/-- `ceil(total_bits / 8) + 1`, `43_compress.md` R163. -/
def encodedBytes (node : Nat → Node) (p : List Byte) : Nat :=
  (totalBits node p + 7) / 8 + 1

/-- The codes of the payload written one after the other from bit offset `off` on: `43_compress.md` R165. -/
def packCodes (node : Nat → Node) : List Byte → Nat → List Byte → List Byte
  | B, _, [] => B
  | B, off, b :: bs =>
    packCodes node (putBits B off (codeBitsOf node b) (codeLengthOf node b)) (off + codeLengthOf node b) bs

/-- Header and packed bits, `43_compress.md` R165, R166: the placeholder 0x00, the codes from bit 8 on, then the header's final
value. -/
def compressedBuffer (node : Nat → Node) (p : List Byte) : List Byte :=
  (packCodes node [0x00#8] 8 p).modify 0 (finishHeader (totalBits node p))

/-- The precondition's violation, `43_compress.md` R161: the payload is not empty and the first byte's high bit is set. -/
def firstByteHigh (p : List Byte) : Bool :=
  match p with
  | [] => false
  | b :: _ => b.getLsbD 7

/-- `COMPRESS`, `43_compress.md` R160. -/
def execCompress (s : State) : Host.Outcome State Fault Refusal :=
  let s := s.beginCommand
  let p := s.inputBytes
  if s.built = false then .next (s.raise .notBuilt)
  else if firstByteHigh p then .next (s.raise .firstByteHighBit)
  else if encodedBytes s.node p ≥ p.length then .next (s.deliver p (totalBits s.node p) true)
  else .next (s.deliver (compressedBuffer s.node p) (totalBits s.node p) false)

end Sys2Proof.Machine
end

