-- ==== Sys2Proof/Machine/Decompress.lean ====
section
/-! DEFINITION. `DECOMPRESS`: `44_decompress.md`. In this file `D` is the input, `len` is `bit_length` and `c` is the cursor;
stream bit `c` is buffer bit `8 + c` (`20_memory.md` R69). -/

namespace Sys2Proof.Machine

/-- The child a tree-walk bit selects, `44_decompress.md` R176: 0 descends left, 1 descends right. -/
def childOf (n : Node) (bit : Bool) : Nat :=
  if bit then n.rightChild.toNat else n.leftChild.toNat

/-- DecodeSymbol from node `n`, `44_decompress.md` R176: the decoded byte and the cursor after it. The overrun test stands before each
read, and each round reads one bit, so `len` rounds are enough. -/
def decodeSymbol (node : Nat → Node) (D : List Byte) (len : Nat) : Nat → Nat → Nat → Except CommandError (Byte × Nat)
  | 0, _, _ => .error .treeWalkOverrun
  | fuel + 1, n, c =>
    if c ≥ len then .error .treeWalkOverrun
    else
      let n' := childOf (node n) (getBit D (8 + c))
      if isLeaf (node n') then .ok (BitVec.ofNat 8 n', c + 1)
      else decodeSymbol node D len fuel n' (c + 1)

/-- DecodeEscape, `44_decompress.md` R177. -/
def decodeEscape (D : List Byte) (len c : Nat) : Except CommandError (Byte × Nat) :=
  if c + 8 > len then .error .escapeOverrun
  else .ok (getByte8 D (8 + c), c + 8)

/-- One symbol of the decode loop, cursor at its prefix bit: `44_decompress.md` R170, R175. -/
def decodeOne (node : Nat → Node) (D : List Byte) (len c : Nat) : Except CommandError (Byte × Nat) :=
  if getBit D (8 + c) then decodeSymbol node D len len 510 (c + 1)
  else decodeEscape D len (c + 1)

/-- The decode loop, `44_decompress.md` R170, R175: it runs while `c < bit_length`, and every round moves the cursor on, so `len` rounds
are enough. The first error in stream order is the one reported (`60_exceptions.md` R207). -/
def decodeLoop (node : Nat → Node) (D : List Byte) (len : Nat) : Nat → Nat → Except CommandError (List Byte)
  | 0, _ => .ok []
  | fuel + 1, c =>
    if c < len then
      match decodeOne node D len c with
      | .error e => .error e
      | .ok (v, c') =>
        match decodeLoop node D len fuel c' with
        | .error e => .error e
        | .ok vs => .ok (v :: vs)
    else .ok []

/-- The decode loop from the first stream bit. -/
def decodeStream (node : Nat → Node) (D : List Byte) (len : Nat) : Except CommandError (List Byte) :=
  decodeLoop node D len len 0

/-- `bit_length`, `44_decompress.md` R174. -/
def bitLength (D : List Byte) (padding : Nat) : Nat :=
  (D.length - 1) * 8 - padding

/-- `DECOMPRESS`, `44_decompress.md` R170. -/
def execDecompress (s : State) : Host.Outcome State Fault Refusal :=
  let s := s.beginCommand
  if s.built = false then .next (s.raise .notBuilt)
  else
    match s.inputBytes with
    | [] => .next (s.raise .emptyInput)
    | h :: rest =>
      let D := h :: rest
      if headerFlag h = false then .next (s.deliver D 0 true)
      else if headerPad h > (D.length - 1) * 8 then .next (s.raise .paddingExceedsBits)
      else
        match decodeStream s.node D (bitLength D (headerPad h)) with
        | .error e => .next (s.raise e)
        | .ok out => .next (s.deliver out (bitLength D (headerPad h)) false)

end Sys2Proof.Machine
end

