-- ==== Sys2Proof/Machine/System.lean ====
section
/-! DEFINITION. `NOP` and the illegal command: `45_system.md`. -/

namespace Sys2Proof.Machine

/-- `NOP`, `45_system.md` R188: the result clear and nothing else. -/
def execNop (s : State) : Host.Outcome State Fault Refusal :=
  .next s.beginCommand.endCommand

/-- Any word that is no command, `45_system.md` R189: the result clear, then `IllegalCommand(ReservedOpcode)`. -/
def execIllegal (s : State) : Host.Outcome State Fault Refusal :=
  .next (s.beginCommand.raise .reservedOpcode)

end Sys2Proof.Machine
end

