-- ==== Sys2Proof/Machine/Port.lean ====
section
/-! DEFINITION. The slave port: the address map of `20_memory.md` R62, the two host transactions of R66, and the write to `CMD`, which
executes a command (`45_system.md` R185). -/

namespace Sys2Proof.Machine

/-- What the address map has at an address. -/
inductive Place where
  /-- A register or reserved word of the register page, by word index. -/
  | register (k : Nat)
  /-- `FREQ[i]`. -/
  | freqWord (i : Nat)
  /-- Word `k` of `N[i]`. -/
  | nodeWord (i k : Nat)
  /-- `IBUF[j]`. -/
  | ibufCell (j : Nat)
  /-- `OBUF[j]`. -/
  | obufCell (j : Nat)
  deriving DecidableEq, Repr

/-- Why the port does not take an access, U9. -/
inductive PortError where
  | unmapped
  | width
  | alignment
  deriving DecidableEq, Repr

/-- A place that takes aligned 32-bit accesses only: `20_memory.md` R70. -/
def wordPlace (a n : Nat) (p : Place) : Except PortError Place :=
  if n ≠ 4 then .error .width
  else if a % 4 ≠ 0 then .error .alignment
  else .ok p

/-- A place that takes 8-bit accesses only: `20_memory.md` R70. -/
def bytePlace (n : Nat) (p : Place) : Except PortError Place :=
  if n ≠ 1 then .error .width else .ok p

/-- The address map, `20_memory.md` R62 to R65. -/
def locate (addr : Addr) (n : Nat) : Except PortError Place :=
  let a := addr.toNat
  if a < 0x00400 then wordPlace a n (.register (a / 4))
  else if a < 0x00800 then wordPlace a n (.freqWord ((a - 0x00400) / 4))
  else if a < 0x02000 then .error .unmapped
  else if a < 0x03FF0 then wordPlace a n (.nodeWord ((a - 0x02000) / 16) ((a - 0x02000) / 4 % 4))
  else if a < 0x10000 then .error .unmapped
  else if a < 0x20000 then bytePlace n (.ibufCell (a - 0x10000))
  else if a < 0x40000 then .error .unmapped
  else if a < 0x80000 then bytePlace n (.obufCell (a - 0x40000))
  else .error .unmapped

/-- How the model stops on an access the port does not take (log entry 6). -/
def portStop : PortError → Host.Outcome State Fault Refusal
  | .unmapped => .fault .unmappedAddress
  | .width => .refused .accessWidth
  | .alignment => .refused .misaligned

/-! ### Reading -/

/-- The word of the register page at word index `k`: `10_state.md` R34 to R41. -/
def State.registerWord (s : State) (k : Nat) : Word :=
  match k with
  | 0 => s.cmd
  | 1 => s.statusWord
  | 2 => s.errcode.setWidth 32
  | 3 => s.inLen.setWidth 32
  | 4 => s.outLen.setWidth 32
  | 5 => s.bitLen.setWidth 32
  | 6 => s.nodeCount.setWidth 32
  | _ => 0#32

/-- Word `k` of a node in the `N` window: `20_memory.md` R64. -/
def Node.word (n : Node) (k : Nat) : Word :=
  match k with
  | 0 => 0#7 ++ (n.rightChild ++ (0#7 ++ n.leftChild))
  | 1 => 0#7 ++ (n.codeBits ++ (0#4 ++ (n.codeLength ++ n.parentOffset)))
  | 2 => n.frequency.extractLsb' 0 32
  | _ => 0#24 ++ n.frequency.extractLsb' 32 8

/-- The bytes of a port word, lowest address first: little-endian, `20_memory.md` R67. -/
def wordBytes (w : Word) : List Byte :=
  [w.extractLsb' 0 8, w.extractLsb' 8 8, w.extractLsb' 16 8, w.extractLsb' 24 8]

/-- What a `MemRead` of a place returns, lowest address first: `20_memory.md` R63 to R66. -/
def State.readPlace (s : State) : Place → List Byte
  | .register k => wordBytes (s.registerWord k)
  | .freqWord i => wordBytes (s.freq[i]?.getD 0#32)
  | .nodeWord i k => wordBytes (Node.word (s.node i) k)
  | .ibufCell j => [s.ibufByte j]
  | .obufCell j => [s.obufByte j]

/-- `MemRead(addr, n)`, `20_memory.md` R66. It has no side effect on the core (R72). -/
def memRead (addr : Addr) (n : Nat) (s : State) : Host.Outcome State Fault Refusal :=
  match locate addr n with
  | .error e => portStop e
  | .ok p => .next { s with rdata := s.readPlace p }

/-! ### Writing -/

/-- The write of `w` to `CMD`, `45_system.md` R185: `w` is stored and one command executed. -/
def writeCmd (w : Word) (s : State) : Host.Outcome State Fault Refusal :=
  match decode w with
  | .ok i => exec i { s with cmd := w }
  | .error _ => execIllegal { s with cmd := w }

/-- What a `MemWrite` of `v` to a place does. `CMD` executes, `IN_LEN` keeps bits 15:0 (`10_state.md` R37), an `IBUF` cell takes the byte
(`20_memory.md` R65); every other mapped place ignores the write (R63 to R65, `10_state.md` R35 to R41). -/
def writePlace (p : Place) (v : Word) (s : State) : Host.Outcome State Fault Refusal :=
  match p with
  | .register 0 => writeCmd v s
  | .register 3 => .next { s with inLen := v.setWidth 16 }
  | .register _ => .next s
  | .freqWord _ => .next s
  | .nodeWord _ _ => .next s
  | .ibufCell j => .next { s with ibuf := s.ibuf.write j (v.setWidth 8) }
  | .obufCell _ => .next s

/-- `MemWrite(addr, n, v)`, `20_memory.md` R66. -/
def memWrite (addr : Addr) (n : Nat) (v : Word) (s : State) : Host.Outcome State Fault Refusal :=
  match locate addr n with
  | .error e => portStop e
  | .ok p => writePlace p v s

/-- One step of the host (`20_memory.md` R66) or a reset (`70_reset_and_hazards.md` R230). A transaction occurs only while `BUSY = 0` (R66);
reset acts at any time. -/
def hostStep (h : HostStep) (s : State) : Host.Outcome State Fault Refusal :=
  match h with
  | .memRead addr n => if s.busy then .refused .portBusy else memRead addr n s
  | .memWrite addr n v => if s.busy then .refused .portBusy else memWrite addr n v s
  | .rst => .next s.applyReset

/-- The step of the machine: the next pending host step; with none pending the core is idle and keeps all state (`60_exceptions.md`
R213). -/
def stepPending (s : State) : Host.Outcome State Fault Refusal :=
  match s.pending with
  | [] => .next s
  | h :: rest => hostStep h { s with pending := rest }

/-- The state in which the next step issues the command word `w`: it is the next thing the host writes to `CMD` (log entry 2). -/
def State.withCommand (s : State) (w : Word) : State :=
  { s with busy := false, pending := .memWrite 0x00000 4 w :: s.pending }

end Sys2Proof.Machine
end

