-- ==== Sys2Proof/Machine/Step.lean ====
section
/-! DEFINITION. One step of the machine, and the state whose next step runs a given command word. -/

namespace Sys2Proof.Machine

/-- One step: the next pending host step (`20_memory.md` R66), which executes a command when it is a write to `CMD`. -/
def step (s : State) : Host.Outcome State Fault Refusal :=
  stepPending s

/-- `s` with the command word `w` (of `nbits` bits) as the host's next write to `CMD`. -/
def State.withFetchWord (s : State) (nbits w : Nat) : State :=
  s.withCommand (BitVec.ofNat 32 (w % 2 ^ nbits))

end Sys2Proof.Machine
end

