-- ==== Sys2Proof/Machine/Script.lean ====
section
/-! DEFINITION. The host's side: the script lines of `30_encoding.md` R105 as the host steps they stand for, and the packet composition
of `45_system.md` R190. -/

namespace Sys2Proof.Machine

/-- The byte writes of a `LOAD`, from `IBUF[j]` on. -/
def loadFrom : Nat → List Byte → List HostStep
  | _, [] => []
  | j, b :: bs => .memWrite (BitVec.ofNat 20 (0x10000 + j)) 1 (b.setWidth 32) :: loadFrom (j + 1) bs

/-- `LOAD b0 ... bk`: the bytes to `IBUF`, then `IN_LEN`. -/
def scriptLoad (bs : List Byte) : List HostStep :=
  loadFrom 0 bs ++ [.memWrite 0x0000C 4 (BitVec.ofNat 32 bs.length)]

/-- `CMDW w`: issue the raw command word. -/
def scriptCmdw (w : Word) : List HostStep :=
  [.memWrite 0x00000 4 w]

/-- `NOP`, `BUILD`, `COMPRESS`, `DECOMPRESS`: issue the command. -/
def scriptCommand (i : Instr) : List HostStep :=
  scriptCmdw (encode i)

/-- `RD reg`, by the register's offset. -/
def scriptRd (offset : Addr) : List HostStep :=
  [.memRead offset 4]

/-- `OUT` once the host has read `OUT_LEN = n`. -/
def scriptOut (n : Nat) : List HostStep :=
  .memRead 0x00010 4 :: (List.range n).map fun j => .memRead (BitVec.ofNat 20 (0x40000 + j)) 1

/-- `MOVE` for a host that reads the result `bs`: `OUT`, then `LOAD` of those bytes. -/
def scriptMove (bs : List Byte) : List HostStep :=
  scriptOut bs.length ++ scriptLoad bs

/-- `PKT_TAG`, `00_scope.md` R8. -/
def packetTag : Byte := 36

/-- The composition point, `45_system.md` R190, from the state after COMPRESS: no packet when the command failed. -/
def packet (clientId : Byte) (s : State) : Option (List Byte) :=
  if s.err then none else some (packetTag :: clientId :: s.outputBytes)

end Sys2Proof.Machine
end

