-- ==== Sys2Proof/WellFormed.lean ====
section
/-! DEFINITION. Well-formed commands and well-formed host steps. A command has no operand, so each is
well-formed; what can be ill-formed is a port access: its address, its width, its alignment. This file says which
accesses the spec defines, as a list of windows; the port itself (Machine/Port.lean) is written from the address
map. -/

namespace Sys2Proof

/-- A command word has no operand fields (`30_encoding.md` R99), so there is nothing to check. -/
def Instr.wellFormed : Instr → Bool
  | .nop => true
  | .build => true
  | .compress => true
  | .decompress => true

/-- A range of port addresses with one access shape. -/
structure Window where
  base : Nat
  size : Nat
  /-- The access width in bytes; an access is aligned to it. -/
  width : Nat
  deriving DecidableEq, Repr

/-- The mapped ranges of `20_memory.md` R62 with the access shape of R66: the register page, `FREQ`, `N`, `IBUF`,
`OBUF`. -/
def portWindows : List Window :=
  [ { base := 0x00000, size := 0x400, width := 4 },
    { base := 0x00400, size := 256 * 4, width := 4 },
    { base := 0x02000, size := 511 * 16, width := 4 },
    { base := 0x10000, size := 65536, width := 1 },
    { base := 0x40000, size := 262144, width := 1 } ]

/-- The window takes an `n`-byte access at `a`: inside it, of its width, aligned to its width. -/
def Window.takes (w : Window) (a n : Nat) : Bool :=
  decide (w.base ≤ a) && decide (a < w.base + w.size) && n == w.width && a % w.width == 0

/-- An access the spec defines, `20_memory.md` R66, R70, R75. -/
def accessWellFormed (addr : Addr) (n : Nat) : Bool :=
  portWindows.any (·.takes addr.toNat n)

/-- A host step the spec defines. -/
def Machine.HostStep.wellFormed : Machine.HostStep → Bool
  | .memRead addr n => accessWellFormed addr n
  | .memWrite addr n _ => accessWellFormed addr n
  | .rst => true

end Sys2Proof
end

