-- ==== Sys2Proof/Safety.lean ====
section
/-! DEFINITION. The terms the statements use: the invariant of a run, SelectPair's index loops, the shape of a built tree, and the stream format as relations
that do not mention the decoder's cursor. -/

namespace Sys2Proof.Machine

/-! ### The invariant between host steps -/

/-- The values `ERRCODE` can hold, `60_exceptions.md` R201: "No other `KIND` or `CAUSE` value is ever written." -/
def errcodeValues : List (BitVec 16) :=
  [0x0000, 0x0101, 0x0102, 0x0202, 0x0302, 0x0402, 0x0103, 0x0203, 0x0104]

/-- What holds of the core between two host steps. -/
structure State.Inv (s : State) : Prop where
  /-- `BUSY` reads 0 at every host read (`10_state.md` R35). -/
  notBusy : s.busy = false
  /-- `ERRCODE` holds a code of `60_exceptions.md` R201. -/
  errcodeKnown : s.errcode ∈ errcodeValues
  /-- After an error there is no result (`60_exceptions.md` R204). -/
  errorHasNoResult : s.errcode ≠ 0#16 → s.outLen = 0#18 ∧ s.bitLen = 0#20 ∧ s.pass = false
  /-- Before a BUILD no command can have delivered a result (`45_system.md` R186). -/
  unbuiltHasNoResult : s.built = false → s.outLen = 0#18 ∧ s.bitLen = 0#20 ∧ s.pass = false
  /-- `N` is unspecified until a BUILD and then what BUILD makes of `FREQ` (`10_state.md` R26). -/
  tree : s.nodes.contents = if s.built then some (buildNodes s.freq) else none
  /-- `NODE_COUNT` is 0 or 511 (`10_state.md` R40). -/
  count : s.nodeCount = if s.built then 511#9 else 0#9
  /-- `IBUF` in canonical form, inside its 65536 cells (`10_state.md` R29). -/
  ibufWf : s.ibuf.wf 65536 = true
  /-- `OBUF` in canonical form, inside its 262144 cells (`10_state.md` R30). -/
  obufWf : s.obuf.wf 262144 = true
  /-- Every cell of the result has a specified value (`10_state.md` R30). -/
  resultWritten : ∀ j, j < s.outLen.toNat → (s.obuf.get? j).isSome

/-! ### The built tree -/

/-- The facts of `10_state.md` R25 about a node array `N` made from `freq`. -/
structure TreeShape (freq : Vector Word 256) (N : List Node) : Prop where
  /-- `N` has exactly 511 entries (R22). -/
  size : N.length = 511
  /-- R25 (a). -/
  leaves : ∀ i, i < 256 → (nodeAt N i).leftChild = Config.noChild ∧ (nodeAt N i).rightChild = Config.noChild
  /-- R25 (b). -/
  internals : ∀ i, 256 ≤ i → i ≤ 510 →
    (nodeAt N i).leftChild.toNat < i ∧ (nodeAt N i).rightChild.toNat < i ∧
      (nodeAt N i).leftChild ≠ (nodeAt N i).rightChild
  /-- R25 (c), the nodes below the root. -/
  attached : ∀ i, i < 510 → (nodeAt N i).parentOffset ≠ 0#8
  /-- R25 (c), the root. -/
  root : (nodeAt N 510).parentOffset = 0#8
  /-- R25 (d): the parent's index is greater, and the node is exactly one of the parent's two children. -/
  parents : ∀ i, i < 510 →
    i < (nodeAt N i).parentOffset.toNat + 255 ∧
      (((nodeAt N ((nodeAt N i).parentOffset.toNat + 255)).leftChild.toNat = i ∧
          (nodeAt N ((nodeAt N i).parentOffset.toNat + 255)).rightChild.toNat ≠ i) ∨
        ((nodeAt N ((nodeAt N i).parentOffset.toNat + 255)).rightChild.toNat = i ∧
          (nodeAt N ((nodeAt N i).parentOffset.toNat + 255)).leftChild.toNat ≠ i))
  /-- R25 (f). -/
  rootWeight : (nodeAt N 510).frequency.toNat = (freq.toList.map BitVec.toNat).sum

/-- An opening scan of SelectPair from index `i`, `40_build_tree.md` R123: up to the next unattached node. The first argument bounds the
number of attached nodes passed. -/
def openingScan (N : List Node) : Nat → Nat → Nat
  | 0, i => i
  | left + 1, i => if (nodeAt N i).parentOffset ≠ 0#8 then openingScan N left (i + 1) else i

/-- The replacement scan of SelectPair, `40_build_tree.md` R124, as that rule writes it: index `i` rises to `k` = `node_count`, and the slots
are compared afresh at every unattached node. The first argument bounds the number of nodes visited. -/
def replacementScan (N : List Node) (k : Nat) : Nat → Nat → Nat → Nat → Nat × Nat
  | 0, _, s1, s2 => (s1, s2)
  | left + 1, i, s1, s2 =>
    if i < k then
      if (nodeAt N i).parentOffset = 0#8 then
        if (nodeAt N s1).frequency > (nodeAt N s2).frequency then
          if (nodeAt N i).frequency < (nodeAt N s1).frequency then replacementScan N k left (i + 1) i s2
          else replacementScan N k left (i + 1) s1 s2
        else
          if (nodeAt N i).frequency < (nodeAt N s2).frequency then replacementScan N k left (i + 1) s1 i
          else replacementScan N k left (i + 1) s1 s2
      else replacementScan N k left (i + 1) s1 s2
    else (s1, s2)

/-- SelectPair by the index loops of `40_build_tree.md` R123 and R124, one after the other. No loop passes more than `k` nodes. -/
def scanPair (N : List Node) (k : Nat) : Nat × Nat :=
  let s1 := openingScan N k 0
  let s2 := openingScan N k (s1 + 1)
  replacementScan N k k (s2 + 1) s1 s2

/-- The nodes of the tree built from `freq`, by index. -/
def builtNode (freq : Vector Word 256) (i : Nat) : Node :=
  nodeAt (buildNodes freq) i

/-! ### Streams -/

/-- The code of a symbol in emission order: bits `code_bits[0]` to `code_bits[code_length - 1]` (`30_encoding.md` R96). -/
def codeOf (node : Nat → Node) (b : Byte) : List Bool :=
  (List.range (codeLengthOf node b)).map fun k => (codeBitsOf node b).getLsbD k

/-- The eight bits of a byte, bit 0 first (`30_encoding.md` R95). -/
def rawBits (b : Byte) : List Bool :=
  (List.range 8).map fun k => b.getLsbD k

/-- The first `len` stream bits of a compressed buffer: stream bit `c` is buffer bit `8 + c` (`30_encoding.md` R93). -/
def streamBits (D : List Byte) (len : Nat) : List Bool :=
  (List.range len).map fun c => getBit D (8 + c)

/-- `Descends node n path m`: from node `n` the branches `path` lead to `m`, and `m` is the first leaf met (`44_decompress.md` R176). -/
inductive Descends (node : Nat → Node) : Nat → List Bool → Nat → Prop where
  | last (n : Nat) (b : Bool) (h : isLeaf (node (childOf (node n) b)) = true) :
      Descends node n [b] (childOf (node n) b)
  | down (n : Nat) (b : Bool) (path : List Bool) (m : Nat) (h : isLeaf (node (childOf (node n) b)) = false)
      (rest : Descends node (childOf (node n) b) path m) : Descends node n (b :: path) m

/-- `Parses node bits out`: the bits are the symbols `out` one after the other with nothing left over, each in the Huffman form (prefix 1,
a path from the root to a leaf) or the escape form (prefix 0, eight raw bits): `30_encoding.md` R95, R97. -/
inductive Parses (node : Nat → Node) : List Bool → List Byte → Prop where
  | done : Parses node [] []
  | huffman (path : List Bool) (m : Nat) (bits : List Bool) (out : List Byte) (h : Descends node 510 path m)
      (rest : Parses node bits out) : Parses node (true :: path ++ bits) (BitVec.ofNat 8 m :: out)
  | escape (b : Byte) (bits : List Bool) (out : List Byte) (rest : Parses node bits out) :
      Parses node (false :: rawBits b ++ bits) (b :: out)

/-- The stream of `s` as an input of DECOMPRESS on its compressed path: the input is not empty, its flag is 1, its padding fits
(`44_decompress.md` R171 to R174), and `len` is its `bit_length`. -/
def State.HoldsStream (s : State) (len : Nat) : Prop :=
  0 < s.inLen.toNat ∧ headerFlag (s.ibufByte 0) = true ∧
    headerPad (s.ibufByte 0) ≤ 8 * (s.inLen.toNat - 1) ∧
      len = 8 * (s.inLen.toNat - 1) - headerPad (s.ibufByte 0)

/-- `k` steps of the machine. -/
abbrev runSteps (k : Nat) (s : State) : Host.Outcome State Fault Refusal :=
  Sys2Proof.core.run k s

end Sys2Proof.Machine
end

