-- ==== Sys2Proof/Certificates/Slice0/Obligations.lean ====
section
/-! DEFINITION. The statements for the provers. In them `exec i s` is one command run at `s`, `step s` is one host step (a write to
`CMD` executes a command), `s.ibufByte j` is `IBUF[j]`, `s.obufByte j` is `OBUF[j]`, `s.node i` is `N[i]`, `s.inputBytes` is
`IBUF[0 .. IN_LEN-1]` and `s.outputBytes` is `OBUF[0 .. OUT_LEN-1]`. -/

open Sys2Proof Sys2Proof.Machine

/-! ### Encoding and dispatch -/

/-- A few command words, written out from `30_encoding.md` R99 and `95_test_vectors.md` V-S3 to V-S5. -/
def Obligations.CommandWordsDecode : Prop :=
  decode 0x00000000#32 = .ok .nop ∧ decode 0x00000001#32 = .ok .build ∧ decode 0x00000002#32 = .ok .compress ∧
    decode 0x00000003#32 = .ok .decompress ∧ decode 0x00000004#32 = .error .reservedOpcode ∧
    decode 0x00000101#32 = .error .reservedOpcode ∧ decode 0xFFFFFFFF#32 = .error .reservedOpcode

/-- `30_encoding.md` R99, R100: a word is a command exactly when it is that command's encoding, and every other word, 4 and above, is
rejected. -/
def Obligations.DecodeInvertsEncode : Prop :=
  (∀ (w : Word) (i : Instr), decode w = .ok i ↔ w = encode i) ∧
    (∀ w : Word, decode w = .error .reservedOpcode ↔ 4 ≤ w.toNat)

/-- `45_system.md` R185: a write of a command's word to `CMD` stores the word and runs that command; nothing else is added around it
but the host step being taken from the pending list. -/
def Obligations.StepRunsWrittenCommand : Prop :=
  ∀ (s : State) (w : Word) (i : Instr) (rest : List HostStep), s.busy = false →
    s.pending = .memWrite 0x00000#20 4 w :: rest → decode w = .ok i →
      step s = exec i { s with pending := rest, cmd := w }

/-- The state `withFetchWord` makes runs the command as its next step, whatever `s` is (log entry 2). -/
def Obligations.FetchWordRunsCommand : Prop :=
  ∀ (s : State) (i : Instr),
    decodeTableWord 32 (encode i).toNat = some i ∧
      step (s.withFetchWord 32 (encode i).toNat) = exec i { s with busy := false, cmd := encode i }

/-- `45_system.md` R189 with `60_exceptions.md` R204: a word that is no command ends in `IllegalCommand(ReservedOpcode)`. `OBUF` becomes
unspecified, as `raise` leaves it (log entry 4); `BUILT` is not looked at. -/
def Obligations.IllegalWordRaises : Prop :=
  ∀ (s : State) (w : Word) (rest : List HostStep), s.busy = false →
    s.pending = .memWrite 0x00000#20 4 w :: rest → 4 ≤ w.toNat →
      step s = .next { s with pending := rest, cmd := w, errcode := 0x0104#16, outLen := 0#18, bitLen := 0#20,
                              pass := false, busy := false, obuf := s.obuf.forget }

/-- `60_exceptions.md` R213: with no host step pending the core is idle and keeps all state. -/
def Obligations.IdleKeepsState : Prop :=
  ∀ s : State, s.pending = [] → step s = .next s

/-- `45_system.md` R191: every command terminates, for every input, every tree and every `FREQ`. -/
def Obligations.CommandsAlwaysComplete : Prop :=
  ∀ (i : Instr) (s : State), ∃ t, exec i s = .next t

/-! ### Reset and the invariant -/

/-- `10_state.md` R43: right after reset every word of the register page reads 0, and no cell of `IBUF`, `OBUF` or `N` has a specified
value. -/
def Obligations.ResetRegistersZero : Prop :=
  (∀ k, State.reset.registerWord k = 0#32) ∧
    State.reset.built = false ∧ State.reset.busy = false ∧ State.reset.pass = false ∧ State.reset.err = false ∧
    (∀ j, State.reset.ibuf.get? j = none) ∧ (∀ j, State.reset.obuf.get? j = none) ∧
    State.reset.nodes.contents = none

/-- `70_reset_and_hazards.md` R230: `rst` may come at any time, even with `BUSY = 1`; every word of the register page then reads 0, no
memory cell keeps a specified value, `FREQ` is unaffected. -/
def Obligations.ResetPinClears : Prop :=
  ∀ (s : State) (rest : List HostStep), s.pending = .rst :: rest →
    ∃ t, step s = .next t ∧ (∀ k, t.registerWord k = 0#32) ∧ t.built = false ∧ t.busy = false ∧
      t.nodes.contents = none ∧ (∀ j, t.ibuf.get? j = none) ∧ (∀ j, t.obuf.get? j = none) ∧
      t.freq = s.freq ∧ t.pending = rest ∧ t.rdata = s.rdata

/-- The invariant holds right after reset. -/
def Obligations.ResetMeetsInvariant : Prop :=
  State.reset.Inv

/-- Every step keeps the invariant: `BUSY` is 0 between host steps, `ERRCODE` holds a code of R201, an error leaves no result, `N` is
unspecified before a BUILD and BUILD's tree of `FREQ` after it, `NODE_COUNT` is 0 or 511, both buffers stay canonical, and every cell of
the result has a value. -/
def Obligations.StepKeepsInvariant : Prop :=
  ∀ s t : State, s.Inv → step s = .next t → t.Inv

/-- `10_state.md` R28: no command, no host access and no reset changes `FREQ`. -/
def Obligations.StepKeepsFreq : Prop :=
  ∀ s t : State, step s = .next t → t.freq = s.freq

/-- `10_state.md` R26: only a reset, or the write of BUILD's word to `CMD` while `BUILT = 0`, changes `N`; the latter makes it the tree of
`FREQ`. -/
def Obligations.NodesChangeOnlyByBuildOrReset : Prop :=
  ∀ s t : State, step s = .next t → t.nodes ≠ s.nodes →
    ∃ rest, s.pending = .rst :: rest ∨
      (s.built = false ∧ s.pending = .memWrite 0x00000#20 4 0x00000001#32 :: rest ∧ t.built = true ∧
        t.nodes.contents = some (buildNodes s.freq))

/-- `10_state.md` R35, R26: once `BUILT` is 1, only a reset clears it, and `N` and `NODE_COUNT` stay as they are. -/
def Obligations.BuiltStaysUntilReset : Prop :=
  ∀ s t : State, step s = .next t → s.built = true → (∀ rest, s.pending ≠ .rst :: rest) →
    t.built = true ∧ t.nodes = s.nodes ∧ t.nodeCount = s.nodeCount

/-! ### What a command leaves alone -/

/-- The frame of the commands (`20_memory.md` R61, `45_system.md` R187, `60_exceptions.md` R204). No command changes `CMD`, `IN_LEN`, `FREQ`
or any byte of `IBUF`, and each ends with `BUSY = 0`. Only BUILD changes `BUILT`, `NODE_COUNT` or `N`. A command that stores no result and
does not fail leaves every byte of `OBUF`. (COMPRESS and DECOMPRESS store `OBUF[0 .. OUT_LEN-1]`; the spec leaves every other cell
unspecified after them and after an error, R236.) -/
def Obligations.CommandFrame : Prop :=
  ∀ (i : Instr) (s t : State), exec i s = .next t →
    t.cmd = s.cmd ∧ t.inLen = s.inLen ∧ t.freq = s.freq ∧ t.pending = s.pending ∧ t.rdata = s.rdata ∧ t.busy = false ∧
      (∀ j, t.ibufByte j = s.ibufByte j) ∧
      (i ≠ .build → t.built = s.built ∧ t.nodeCount = s.nodeCount ∧ ∀ k, t.node k = s.node k) ∧
      (i = .nop ∨ (i = .build ∧ s.built = false) → ∀ j, t.obufByte j = s.obufByte j)

/-- `10_state.md` R30, `45_system.md` R187: nothing an earlier command left (`ERRCODE`, `OUT_LEN`, `BITLEN`, `PASS`, `OBUF`) has an influence
on a command: with any other leftovers it ends in the same registers and the same result bytes. -/
def Obligations.OldResultsDoNotMatter : Prop :=
  ∀ (i : Instr) (s t : State) (e : BitVec 16) (o : BitVec 18) (b : BitVec 20) (p : Bool) (m : Memory),
    exec i s = .next t →
      ∃ t', exec i { s with errcode := e, outLen := o, bitLen := b, pass := p, obuf := m } = .next t' ∧
        t'.outputBytes = t.outputBytes ∧ { t' with obuf := t.obuf } = t

/-- `10_state.md` R44, `20_memory.md` R61: what a command reports is a function of `FREQ`, `N`, `BUILT` and the input bytes alone; `IBUF` at
and beyond `IN_LEN` has no influence. -/
def Obligations.OnlyTheInputMatters : Prop :=
  ∀ (i : Instr) (s u t : State), u.built = s.built → u.freq = s.freq → u.nodes = s.nodes →
    u.inputBytes = s.inputBytes → exec i s = .next t →
      ∃ v, exec i u = .next v ∧ v.errcode = t.errcode ∧ v.outLen = t.outLen ∧ v.bitLen = t.bitLen ∧ v.pass = t.pass ∧
        v.built = t.built ∧ v.nodes = t.nodes ∧ v.outputBytes = t.outputBytes

/-! ### NOP and the errors -/

/-- `45_system.md` R188: NOP, the word 0, clears the result registers and does nothing else, in every state. -/
def Obligations.NopClearsResults : Prop :=
  encode .nop = 0x00000000#32 ∧
    ∀ s : State, exec .nop s =
      .next { s with errcode := 0#16, outLen := 0#18, bitLen := 0#20, pass := false, busy := false }

/-- `60_exceptions.md` R204: what `raise` writes, what it leaves, and that it leaves `OBUF` unspecified, all cells. That an
unspecified cell reads the free value of the memory's next draw, the last clause, is the model's choice (log entry 3). -/
def Obligations.RaiseRecordsTheError : Prop :=
  ∀ (e : CommandError) (s : State),
    (s.raise e).errcode = (e.cause.setWidth 16 <<< 8) ||| e.kind.setWidth 16 ∧ (s.raise e).err = true ∧
      (s.raise e).outLen = 0#18 ∧ (s.raise e).bitLen = 0#20 ∧ (s.raise e).pass = false ∧ (s.raise e).busy = false ∧
      (s.raise e).built = s.built ∧ (s.raise e).nodeCount = s.nodeCount ∧ (∀ k, (s.raise e).node k = s.node k) ∧
      (s.raise e).inLen = s.inLen ∧ (∀ j, (s.raise e).ibufByte j = s.ibufByte j) ∧ (s.raise e).cmd = s.cmd ∧
      (∀ j, (s.raise e).obuf.get? j = none) ∧
      (∀ j, (s.raise e).obufByte j = Config.obufFree (s.obuf.fill + 1) j)

/-- The table of `60_exceptions.md` R201. -/
def Obligations.ErrorCodeTable : Prop :=
  CommandError.firstByteHighBit.code = 0x0101#16 ∧ CommandError.emptyInput.code = 0x0102#16 ∧
    CommandError.paddingExceedsBits.code = 0x0202#16 ∧ CommandError.treeWalkOverrun.code = 0x0302#16 ∧
    CommandError.escapeOverrun.code = 0x0402#16 ∧ CommandError.notBuilt.code = 0x0103#16 ∧
    CommandError.alreadyBuilt.code = 0x0203#16 ∧ CommandError.reservedOpcode.code = 0x0104#16

/-- `60_exceptions.md` R205: BUILD with `BUILT = 1` and COMPRESS or DECOMPRESS with `BUILT = 0` end in `SequenceError`, whatever `IN_LEN`
and `IBUF` hold; the codes are R201's and the result registers R204's. That `OBUF` is unspecified after these errors too, the refused BUILD
included, is the model's reading of R204 against R61 and R236 (log entry 4). -/
def Obligations.WrongSequenceRaises : Prop :=
  (∀ s : State, s.built = true → exec .build s =
      .next { s with errcode := 0x0203#16, outLen := 0#18, bitLen := 0#20, pass := false, busy := false,
                     obuf := s.obuf.forget }) ∧
    (∀ (i : Instr) (s : State), i = .compress ∨ i = .decompress → s.built = false → exec i s =
      .next { s with errcode := 0x0103#16, outLen := 0#18, bitLen := 0#20, pass := false, busy := false,
                     obuf := s.obuf.forget })

/-! ### BUILD -/

/-- `40_build_tree.md` R120, R128: with `BUILT = 0`, BUILD writes `N` from `FREQ`, sets `BUILT` and `NODE_COUNT`, clears the result
registers and changes nothing else; every `FREQ` is a legal input. -/
def Obligations.BuildWritesTheTree : Prop :=
  ∀ s : State, s.built = false → exec .build s =
    .next { s with nodes := { s.nodes with contents := some (buildNodes s.freq) }, built := true, nodeCount := 511#9,
                   errcode := 0#16, outLen := 0#18, bitLen := 0#20, pass := false, busy := false }

/-- `40_build_tree.md` R121: every field of every node after Init. -/
def Obligations.InitWritesEveryNode : Prop :=
  ∀ freq : Vector Word 256, (initNodes freq).length = 511 ∧
    ∀ i, i < 511 →
      (nodeAt (initNodes freq) i).leftChild = 511#9 ∧ (nodeAt (initNodes freq) i).rightChild = 511#9 ∧
        (nodeAt (initNodes freq) i).parentOffset = 0#8 ∧
        (nodeAt (initNodes freq) i).frequency = (if h : i < 256 then freq[i].setWidth 40 else 0#40) ∧
        (nodeAt (initNodes freq) i).codeBits = 0#9 ∧ (nodeAt (initNodes freq) i).codeLength = 0#4

/-- `40_build_tree.md` R124: which slot a candidate replaces, the tie going to `s2` (decision D4), and that the replacement is by strict
comparison. -/
def Obligations.ReplaceableSlotRule : Prop :=
  ∀ s1 s2 c : Slot,
    (s2.frequency < s1.frequency → c.frequency < s1.frequency → considerSlot (s1, s2) c = (c, s2)) ∧
      (s2.frequency < s1.frequency → s1.frequency ≤ c.frequency → considerSlot (s1, s2) c = (s1, s2)) ∧
      (s1.frequency ≤ s2.frequency → c.frequency < s2.frequency → considerSlot (s1, s2) c = (s1, c)) ∧
      (s1.frequency ≤ s2.frequency → s2.frequency ≤ c.frequency → considerSlot (s1, s2) c = (s1, s2))

/-- `40_build_tree.md` R125: with two unattached nodes below `node_count`, SelectPair returns two different ones, and no other unattached
node below `node_count` is lighter than either. -/
def Obligations.SelectPairTakesTwoSmallest : Prop :=
  ∀ (N : List Node) (k a b : Nat), k ≤ N.length → a < b → b < k →
    (nodeAt N a).parentOffset = 0#8 → (nodeAt N b).parentOffset = 0#8 →
      ∃ s1 s2, selectPair N k = some (s1, s2) ∧ s1 ≠ s2 ∧ s1 < k ∧ s2 < k ∧
        (nodeAt N s1).parentOffset = 0#8 ∧ (nodeAt N s2).parentOffset = 0#8 ∧
        ∀ u, u < k → (nodeAt N u).parentOffset = 0#8 → u ≠ s1 → u ≠ s2 →
          (nodeAt N s1).frequency ≤ (nodeAt N u).frequency ∧ (nodeAt N s2).frequency ≤ (nodeAt N u).frequency

/-- `40_build_tree.md` R123, R124: with two unattached nodes below `node_count`, SelectPair returns what the rules' own loops return: the
opening pair is the two lowest unattached indices, and every later unattached node is a candidate, in rising index order. -/
def Obligations.SelectPairRunsTheScans : Prop :=
  ∀ (N : List Node) (k a b : Nat), k ≤ N.length → a < b → b < k →
    (nodeAt N a).parentOffset = 0#8 → (nodeAt N b).parentOffset = 0#8 →
      selectPair N k = some (scanPair N k)

/-- `40_build_tree.md` R126: what Merge writes into node `k` and the two chosen nodes, and that it changes nothing else. -/
def Obligations.MergeJoinsThePair : Prop :=
  ∀ (N : List Node) (k s1 s2 : Nat), N.length = 511 → 256 ≤ k → k ≤ 510 → s1 < k → s2 < k → s1 ≠ s2 →
    (mergeNodes N k s1 s2).length = 511 ∧
      nodeAt (mergeNodes N k s1 s2) k =
        { nodeAt N k with frequency := (nodeAt N s1).frequency + (nodeAt N s2).frequency
                          rightChild := BitVec.ofNat 9 s1
                          leftChild := BitVec.ofNat 9 s2 } ∧
      (∀ i, i = s1 ∨ i = s2 → nodeAt (mergeNodes N k s1 s2) i =
        { nodeAt N i with parentOffset := BitVec.ofNat 8 (k - 255) }) ∧
      (∀ i, i ≠ k → i ≠ s1 → i ≠ s2 → nodeAt (mergeNodes N k s1 s2) i = nodeAt N i)

/-- `40_build_tree.md` R120, R122, R126, R127: for every table and every round of the merge loop, the round merges the pair SelectPair chooses
from the array as the earlier rounds left it, and in what BUILD writes node `k` still has that pair, first slot right, second slot left, as
its children, the two nodes have `k` as their parent, and the weight of `k` is the exact sum of theirs. -/
def Obligations.BuildMergesTheSelectedPairs : Prop :=
  ∀ (freq : Vector Word 256) (r k : Nat), r < 255 → k = 256 + r →
    ∃ s1 s2, selectPair (mergeRounds (initNodes freq) r) k = some (s1, s2) ∧
      mergeRounds (initNodes freq) (r + 1) = mergeNodes (mergeRounds (initNodes freq) r) k s1 s2 ∧
      (builtNode freq k).rightChild.toNat = s1 ∧ (builtNode freq k).leftChild.toNat = s2 ∧
      (builtNode freq s1).parentOffset.toNat + 255 = k ∧ (builtNode freq s2).parentOffset.toNat + 255 = k ∧
      (builtNode freq k).frequency.toNat = (builtNode freq s1).frequency.toNat + (builtNode freq s2).frequency.toNat ∧
      ∀ i, i < k → (builtNode freq i).frequency = (nodeAt (mergeRounds (initNodes freq) r) i).frequency

/-- `10_state.md` R25 (a) to (f), for every table: leaves, internal nodes, one root at 510, every other node attached to a later node of
which it is exactly one child, and the root's weight the exact sum of all 256 entries. -/
def Obligations.BuiltTreeShape : Prop :=
  ∀ freq : Vector Word 256, TreeShape freq (buildNodes freq)

/-- `41_code_table.md` R145 (a) to (c), R143: code lengths are 2 to 9, no bit at or above the length is set, the prefix bit is 1 exactly
below length 9, and length 9 is exactly the escape code `i << 1`. -/
def Obligations.CodeTableBounds : Prop :=
  ∀ (freq : Vector Word 256) (b : Byte),
    2 ≤ codeLengthOf (builtNode freq) b ∧ codeLengthOf (builtNode freq) b ≤ 9 ∧
      (codeBitsOf (builtNode freq) b).toNat < 2 ^ codeLengthOf (builtNode freq) b ∧
      ((codeBitsOf (builtNode freq) b).getLsbD 0 = true ↔ codeLengthOf (builtNode freq) b ≤ 8) ∧
      (codeLengthOf (builtNode freq) b = 9 ↔ (codeBitsOf (builtNode freq) b).toNat = 2 * b.toNat)

/-- `41_code_table.md` R144, R143: every symbol's leaf is reached from the root by a path of 1 to 255 branches; its code in emission order is
prefix 1 and that path when the path has at most 7 branches, and prefix 0 and the raw byte, bit 0 first, when it has 8 or more. -/
def Obligations.CodesAreTreePaths : Prop :=
  ∀ (freq : Vector Word 256) (b : Byte), ∃ path,
    Descends (builtNode freq) 510 path b.toNat ∧ 1 ≤ path.length ∧ path.length ≤ 255 ∧
      codeOf (builtNode freq) b = if path.length ≤ 7 then true :: path else false :: rawBits b

/-- `30_encoding.md` R97, `41_code_table.md` R145 (d): no symbol's code is the start of another symbol's code. -/
def Obligations.CodesArePrefixFree : Prop :=
  ∀ (freq : Vector Word 256) (a b : Byte), a ≠ b →
    ¬ (codeOf (builtNode freq) a).IsPrefix (codeOf (builtNode freq) b)

/-- `40_build_tree.md` R128, `43_compress.md` R168 (determinism): building again after a reset gives the same `N`. -/
def Obligations.RebuildAfterResetIsSame : Prop :=
  ∀ s : State, s.Inv → s.built = true →
    ∃ t, runSteps 2 { s with pending := [.rst, .memWrite 0x00000#20 4 0x00000001#32] } = .next t ∧
      t.built = true ∧ t.nodes.contents = s.nodes.contents

/-! ### The bit codec -/

/-- `42_bitcodec.md` R155: into a buffer that is zero from `off` on, PutBits writes `v[k]` at `off + k`, leaves the positions before `off`, leaves
the positions after the group zero, and makes the buffer just long enough; an escape code reads back as its byte. -/
def Obligations.PutBitsReadsBack : Prop :=
  (∀ (B : List Byte) (off : Nat) (v : BitVec 9) (n : Nat), (∀ q, off ≤ q → getBit B q = false) →
      (∀ k, k < n → getBit (putBits B off v n) (off + k) = v.getLsbD k) ∧
        (∀ q, q < off → getBit (putBits B off v n) q = getBit B q) ∧
        (∀ q, off + n ≤ q → getBit (putBits B off v n) q = false) ∧
        (0 < n ∨ off ≤ 8 * B.length → (putBits B off v n).length = max B.length ((off + n + 7) / 8))) ∧
    (∀ (B : List Byte) (off : Nat) (i : Byte), (∀ q, off ≤ q → getBit B q = false) →
      getBit (putBits B off (i.setWidth 9 <<< 1) 9) off = false ∧
        getByte8 (putBits B off (i.setWidth 9 <<< 1) 9) (off + 1) = i)

/-- `42_bitcodec.md` R154: the first bit read becomes bit 0, and the two-byte form of the same read. -/
def Obligations.GetByte8TakesEightBits : Prop :=
  ∀ (B : List Byte) (q : Nat),
    (∀ k, k < 8 → (getByte8 B q).getLsbD k = getBit B (q + k)) ∧
      (q % 8 = 0 → getByte8 B q = B.getD (q / 8) 0#8) ∧
      (q % 8 ≠ 0 → getByte8 B q =
        (B.getD (q / 8) 0#8 >>> (q % 8)) ||| (B.getD (q / 8 + 1) 0#8 <<< (8 - q % 8)))

/-! ### COMPRESS -/

/-- `43_compress.md` R161: COMPRESS fails with `InvalidInput` exactly when the payload is not empty and its byte 0 is 0x80 or above, whatever
else it holds, and then produces no output. -/
def Obligations.CompressRefusesHighFirstByte : Prop :=
  ∀ s : State, s.built = true →
    (0 < s.inLen.toNat → 0x80 ≤ (s.ibufByte 0).toNat → exec .compress s =
        .next { s with errcode := 0x0101#16, outLen := 0#18, bitLen := 0#20, pass := false, busy := false,
                       obuf := s.obuf.forget }) ∧
      (s.inLen.toNat = 0 ∨ (s.ibufByte 0).toNat < 0x80 → ∃ t, exec .compress s = .next t ∧ t.errcode = 0#16)

/-- `43_compress.md` R162 to R164: when the coded form would not be shorter, COMPRESS returns the payload as it is. -/
def Obligations.CompressPassesThrough : Prop :=
  ∀ s : State, s.built = true → s.inLen.toNat = 0 ∨ (s.ibufByte 0).toNat < 0x80 →
    s.inLen.toNat ≤ (totalBits s.node s.inputBytes + 7) / 8 + 1 →
      ∃ t, exec .compress s = .next t ∧ t.errcode = 0#16 ∧ t.pass = true ∧ t.outLen.toNat = s.inLen.toNat ∧
        t.bitLen.toNat = totalBits s.node s.inputBytes ∧ t.outputBytes = s.inputBytes

/-- `43_compress.md` R165, R166, `30_encoding.md` R91, R93: the compressed result has `encoded_bytes` bytes, the header `0x80 | pad`, the codes of
the payload's bytes one after the other from stream bit 0 on, and zeros for padding. -/
def Obligations.CompressPacksTheCodes : Prop :=
  ∀ s : State, s.built = true → s.inLen.toNat = 0 ∨ (s.ibufByte 0).toNat < 0x80 →
    (totalBits s.node s.inputBytes + 7) / 8 + 1 < s.inLen.toNat →
      ∃ t, exec .compress s = .next t ∧ t.errcode = 0#16 ∧ t.pass = false ∧
        t.outLen.toNat = (totalBits s.node s.inputBytes + 7) / 8 + 1 ∧
        t.bitLen.toNat = totalBits s.node s.inputBytes ∧
        t.outputBytes.length = t.outLen.toNat ∧
        t.obufByte 0 = 0x80#8 ||| BitVec.ofNat 8 ((8 - totalBits s.node s.inputBytes % 8) % 8) ∧
        streamBits t.outputBytes (totalBits s.node s.inputBytes) = s.inputBytes.flatMap (codeOf s.node) ∧
        (∀ q, 8 + totalBits s.node s.inputBytes ≤ q → getBit t.outputBytes q = false)

/-- `43_compress.md` R166, R164: the result is never longer than the payload, and shorter on the compressed path. -/
def Obligations.CompressNeverGrows : Prop :=
  ∀ s t : State, exec .compress s = .next t →
    t.outLen.toNat ≤ s.inLen.toNat ∧ (t.errcode = 0#16 → t.pass = false → t.outLen.toNat < s.inLen.toNat)

/-- `43_compress.md` R168, bit-length accounting: on the compressed path `(OBUF[0] & 0x0F) + BITLEN = 8 * (OUT_LEN - 1)`. -/
def Obligations.CompressAccountsForEveryBit : Prop :=
  ∀ s t : State, exec .compress s = .next t → t.errcode = 0#16 → t.pass = false →
    (t.obufByte 0 &&& 0x0F#8).toNat + t.bitLen.toNat = 8 * (t.outLen.toNat - 1)

/-- `43_compress.md` R162 and R167 (a), (b), (d), over a built tree: `2 * L <= total_bits <= 9 * L`; a payload of at most two bytes, and one made
only of escaped bytes, passes through. -/
def Obligations.ShortAndEscapedPassThrough : Prop :=
  ∀ s : State, s.Inv → s.built = true →
    2 * s.inLen.toNat ≤ totalBits s.node s.inputBytes ∧ totalBits s.node s.inputBytes ≤ 9 * s.inLen.toNat ∧
      (s.inLen.toNat = 0 ∨ (s.ibufByte 0).toNat < 0x80 →
        s.inLen.toNat ≤ 2 ∨ (∀ b ∈ s.inputBytes, codeLengthOf s.node b = 9) →
          ∃ t, exec .compress s = .next t ∧ t.errcode = 0#16 ∧ t.pass = true ∧ t.outputBytes = s.inputBytes)

/-! ### DECOMPRESS -/

/-- `44_decompress.md` R171: empty input fails, whatever `IBUF` holds. -/
def Obligations.DecompressRefusesEmpty : Prop :=
  ∀ s : State, s.built = true → s.inLen = 0#16 → exec .decompress s =
    .next { s with errcode := 0x0102#16, outLen := 0#18, bitLen := 0#20, pass := false, busy := false,
                   obuf := s.obuf.forget }

/-- `44_decompress.md` R173: with flag 0 the whole input is returned, byte 0 included, whatever the other bytes and the tree are; the
command still requires `BUILT = 1`. -/
def Obligations.DecompressPassesThrough : Prop :=
  ∀ s : State, 0 < s.inLen.toNat → (s.ibufByte 0).getLsbD 7 = false →
    (s.built = true → ∃ t, exec .decompress s = .next t ∧ t.errcode = 0#16 ∧ t.pass = true ∧ t.bitLen = 0#20 ∧
        t.outLen.toNat = s.inLen.toNat ∧ t.outputBytes = s.inputBytes) ∧
      (s.built = false → ∃ t, exec .decompress s = .next t ∧ t.errcode = 0x0103#16)

/-- `44_decompress.md` R172, R174: with flag 1 the padding, the four low bits of byte 0, is refused exactly when it exceeds the available bits;
otherwise a successful decode reports `bit_length`. -/
def Obligations.DecompressChecksPadding : Prop :=
  ∀ s : State, s.built = true → 0 < s.inLen.toNat → (s.ibufByte 0).getLsbD 7 = true →
    (8 * (s.inLen.toNat - 1) < (s.ibufByte 0).toNat % 16 → exec .decompress s =
        .next { s with errcode := 0x0202#16, outLen := 0#18, bitLen := 0#20, pass := false, busy := false,
                       obuf := s.obuf.forget }) ∧
      ((s.ibufByte 0).toNat % 16 ≤ 8 * (s.inLen.toNat - 1) →
        ∃ t, exec .decompress s = .next t ∧ t.errcode ≠ 0x0202#16 ∧
          (t.errcode = 0#16 → t.pass = false ∧
            t.bitLen.toNat = 8 * (s.inLen.toNat - 1) - (s.ibufByte 0).toNat % 16))

/-- `44_decompress.md` R175 to R177, `30_encoding.md` R97: the decode loop succeeds with `out` exactly when the significant bits are the symbols
`out` one after the other with nothing left over, for every tree and every stream. -/
def Obligations.DecodeStreamParsesSymbols : Prop :=
  ∀ (node : Nat → Node) (D : List Byte) (len : Nat) (out : List Byte),
    decodeStream node D len = .ok out ↔ Parses node (streamBits D len) out

/-- `44_decompress.md` R178: a stream that parses is decoded to its symbols. -/
def Obligations.DecompressDecodesStream : Prop :=
  ∀ (s : State) (len : Nat) (out : List Byte), s.built = true → s.HoldsStream len →
    Parses s.node (streamBits s.inputBytes len) out →
      ∃ t, exec .decompress s = .next t ∧ t.errcode = 0#16 ∧ t.pass = false ∧ t.outLen.toNat = out.length ∧
        t.bitLen.toNat = len ∧ t.outputBytes = out

/-- `44_decompress.md` R176, R177, `60_exceptions.md` R207: the first defect in stream order is the one reported. After symbols that parse, a prefix 1
from which no leaf is reached within the significant bits is `TreeWalkOverrun`, and a prefix 0 with fewer than eight bits left is
`EscapeOverrun`; the symbols before it are discarded. -/
def Obligations.FirstStreamDefectReported : Prop :=
  ∀ (s : State) (len : Nat) (good tail : List Bool) (out : List Byte), s.built = true → s.HoldsStream len →
    Parses s.node good out →
      (streamBits s.inputBytes len = good ++ true :: tail →
        (∀ path m, path.IsPrefix tail → ¬ Descends s.node 510 path m) → exec .decompress s =
          .next { s with errcode := 0x0302#16, outLen := 0#18, bitLen := 0#20, pass := false, busy := false,
                         obuf := s.obuf.forget }) ∧
      (streamBits s.inputBytes len = good ++ false :: tail → tail.length < 8 → exec .decompress s =
          .next { s with errcode := 0x0402#16, outLen := 0#18, bitLen := 0#20, pass := false, busy := false,
                         obuf := s.obuf.forget })

/-- `44_decompress.md` R181: on the compressed path every symbol takes at least two bits, so the result fits `OBUF`. -/
def Obligations.DecompressOutputBound : Prop :=
  ∀ s t : State, exec .decompress s = .next t → t.pass = false →
    2 * t.outLen.toNat ≤ t.bitLen.toNat ∧ t.bitLen.toNat ≤ 8 * (s.inLen.toNat - 1)

/-- `44_decompress.md` R182, over the commands: DECOMPRESS of a successful COMPRESS's result, in any state with the same `N`, gives the payload back. -/
def Obligations.DecompressInvertsCompress : Prop :=
  ∀ s t u : State, s.Inv → s.built = true → 0 < s.inLen.toNat → exec .compress s = .next t → t.errcode = 0#16 →
    u.built = true → u.nodes = s.nodes → u.inputBytes = t.outputBytes →
      ∃ v, exec .decompress u = .next v ∧ v.errcode = 0#16 ∧ v.outputBytes = s.inputBytes

/-- `44_decompress.md` R182, over the host port: after a BUILD, for every payload `P` of 1 to 65535 bytes whose first byte is below 0x80,
`LOAD P; COMPRESS; MOVE; DECOMPRESS` ends with no error and `OBUF[0 .. OUT_LEN-1] = P`. -/
def Obligations.ScriptRoundTrip : Prop :=
  ∀ (s : State) (b : Byte) (bs : List Byte), s.Inv → s.built = true → b.toNat < 0x80 → bs.length < 65535 →
    ∃ t u,
      runSteps (scriptLoad (b :: bs) ++ scriptCommand .compress).length
          { s with pending := scriptLoad (b :: bs) ++ scriptCommand .compress } = .next t ∧
        t.errcode = 0#16 ∧
        runSteps (scriptMove t.outputBytes ++ scriptCommand .decompress).length
          { t with pending := scriptMove t.outputBytes ++ scriptCommand .decompress } = .next u ∧
        u.errcode = 0#16 ∧ u.outputBytes = b :: bs

/-! ### The port -/

/-- `10_state.md` R35: the bits of the word `STATUS` reads as. -/
def Obligations.StatusWordBits : Prop :=
  ∀ s : State, s.statusWord.getLsbD 0 = s.built ∧ s.statusWord.getLsbD 1 = s.busy ∧
    (s.statusWord.getLsbD 2 = true ↔ s.errcode.toNat % 256 ≠ 0) ∧ s.statusWord.getLsbD 3 = s.pass ∧
    ∀ k, 4 ≤ k → s.statusWord.getLsbD k = false

/-- `10_state.md` R34 to R41, `20_memory.md` R67, R72: a 32-bit read of a register or reserved word returns the register with its unimplemented bits
0, lowest byte first, and changes nothing of the core. -/
def Obligations.PortReadsRegisters : Prop :=
  ∀ (s : State) (rest : List HostStep) (a : Addr) (w : Word), s.busy = false → s.pending = .memRead a 4 :: rest →
    (a = 0x00#20 ∧ w = s.cmd) ∨ (a = 0x04#20 ∧ w = s.statusWord) ∨ (a = 0x08#20 ∧ w = s.errcode.setWidth 32) ∨
      (a = 0x0C#20 ∧ w = s.inLen.setWidth 32) ∨ (a = 0x10#20 ∧ w = s.outLen.setWidth 32) ∨
      (a = 0x14#20 ∧ w = s.bitLen.setWidth 32) ∨ (a = 0x18#20 ∧ w = s.nodeCount.setWidth 32) ∨
      (0x1C ≤ a.toNat ∧ a.toNat < 0x400 ∧ a.toNat % 4 = 0 ∧ w = 0#32) →
        ∃ t, step s = .next t ∧ t = { s with pending := rest, rdata := t.rdata } ∧
          t.rdata = [w.setWidth 8, (w >>> 8).setWidth 8, (w >>> 16).setWidth 8, (w >>> 24).setWidth 8]

/-- `10_state.md` R37: a write to `IN_LEN` keeps bits 15:0 and changes nothing else. -/
def Obligations.InLenKeepsLowBits : Prop :=
  ∀ (s : State) (rest : List HostStep) (v : Word), s.busy = false → s.pending = .memWrite 0x0C#20 4 v :: rest →
    step s = .next { s with pending := rest, inLen := v.setWidth 16 }

/-- `10_state.md` R35, R36, R38 to R41, `20_memory.md` R63 to R65: a write to a read-only register, a reserved word, the `FREQ` window, the `N` window
or the `OBUF` window is ignored. -/
def Obligations.ReadOnlyPlacesIgnoreWrites : Prop :=
  ∀ (s : State) (rest : List HostStep) (a : Addr) (n : Nat) (v : Word), s.busy = false →
    s.pending = .memWrite a n v :: rest →
    (n = 4 ∧ a.toNat % 4 = 0 ∧ a ≠ 0x00#20 ∧ a ≠ 0x0C#20 ∧
        (a.toNat < 0x800 ∨ (0x2000 ≤ a.toNat ∧ a.toNat < 0x3FF0))) ∨
      (n = 1 ∧ 0x40000 ≤ a.toNat ∧ a.toNat < 0x80000) →
        step s = .next { s with pending := rest }

/-- `20_memory.md` R63: the word at `0x00400 + 4*i` reads `FREQ[i]`, and a write to it is ignored. -/
def Obligations.FreqWindowShowsTable : Prop :=
  ∀ (s : State) (rest : List HostStep) (i : Nat) (h : i < 256), s.busy = false →
    (s.pending = .memRead (BitVec.ofNat 20 (0x00400 + 4 * i)) 4 :: rest →
      step s = .next { s with pending := rest, rdata := wordBytes s.freq[i] }) ∧
    (∀ v, s.pending = .memWrite (BitVec.ofNat 20 (0x00400 + 4 * i)) 4 v :: rest →
      step s = .next { s with pending := rest })

/-- `20_memory.md` R64: word `k` of the 16 bytes at `0x02000 + 16*i` is read as packed from the six fields of `N[i]`, the unlisted bits 0; writes are
ignored; before a BUILD the fields are the free values (log entry 5). -/
def Obligations.NodeWindowShowsNodes : Prop :=
  (∀ (s : State) (rest : List HostStep) (i k : Nat), i < 511 → k < 4 → s.busy = false →
    (s.pending = .memRead (BitVec.ofNat 20 (0x02000 + 16 * i + 4 * k)) 4 :: rest →
      step s = .next { s with pending := rest, rdata := wordBytes (Node.word (s.node i) k) }) ∧
    (∀ v, s.pending = .memWrite (BitVec.ofNat 20 (0x02000 + 16 * i + 4 * k)) 4 v :: rest →
      step s = .next { s with pending := rest }) ∧
    (s.nodes.contents = none → s.node i = Config.nodeFree s.nodes.fill i)) ∧
  (∀ n : Node,
    (Node.word n 0).toNat = n.leftChild.toNat + 2 ^ 16 * n.rightChild.toNat ∧
    (Node.word n 1).toNat =
      n.parentOffset.toNat + 2 ^ 8 * n.codeLength.toNat + 2 ^ 16 * n.codeBits.toNat ∧
    (Node.word n 2).toNat = n.frequency.toNat % 2 ^ 32 ∧ (Node.word n 3).toNat = n.frequency.toNat / 2 ^ 32)

/-- `20_memory.md` R65: an `IBUF` cell takes the byte a host write gives it and returns it; every other cell and register stays; an `OBUF` cell is
read and never written by the host. -/
def Obligations.BufferWindows : Prop :=
  (∀ (s : State) (rest : List HostStep) (j : Nat) (v : Word), j < 65536 → s.busy = false →
    (s.pending = .memWrite (BitVec.ofNat 20 (0x10000 + j)) 1 v :: rest →
      ∃ t, step s = .next t ∧ t.ibufByte j = v.setWidth 8 ∧ (∀ k, k ≠ j → t.ibufByte k = s.ibufByte k) ∧
        t = { s with pending := rest, ibuf := t.ibuf }) ∧
    (s.pending = .memRead (BitVec.ofNat 20 (0x10000 + j)) 1 :: rest →
      step s = .next { s with pending := rest, rdata := [s.ibufByte j] })) ∧
  (∀ (s : State) (rest : List HostStep) (j : Nat) (v : Word), j < 262144 → s.busy = false →
    (s.pending = .memRead (BitVec.ofNat 20 (0x40000 + j)) 1 :: rest →
      step s = .next { s with pending := rest, rdata := [s.obufByte j] }) ∧
    (s.pending = .memWrite (BitVec.ofNat 20 (0x40000 + j)) 1 v :: rest →
      step s = .next { s with pending := rest }))

/-- `20_memory.md` R66, R70, R75: with the port free, a host step is taken exactly when it is an access of a mapped window with that window's width and
alignment, or a reset; an access to an unmapped address stops as the model's fault (log entry 6). -/
def Obligations.PortTakesExactlyDefinedAccesses : Prop :=
  (∀ (s : State) (e : HostStep) (rest : List HostStep), s.busy = false → s.pending = e :: rest →
    ((∃ t, step s = .next t) ↔ e.wellFormed = true)) ∧
  (∀ (s : State) (a : Addr) (n : Nat) (v : Word) (rest : List HostStep), s.busy = false →
    s.pending = .memRead a n :: rest ∨ s.pending = .memWrite a n v :: rest →
    (0x00800 ≤ a.toNat ∧ a.toNat ≤ 0x01FFF) ∨ (0x03FF0 ≤ a.toNat ∧ a.toNat ≤ 0x0FFFF) ∨
      (0x20000 ≤ a.toNat ∧ a.toNat ≤ 0x3FFFF) ∨ 0x80000 ≤ a.toNat →
      step s = .fault .unmappedAddress)

/-! ### The host's side -/

/-- `30_encoding.md` R105: the expansion of `LOAD` leaves exactly the given bytes as the input and touches nothing else. -/
def Obligations.LoadFillsTheInput : Prop :=
  ∀ (s : State) (bs : List Byte) (rest : List HostStep), s.busy = false → bs.length < 65536 →
    s.pending = scriptLoad bs ++ rest →
      ∃ t, runSteps (bs.length + 1) s = .next t ∧ t.inputBytes = bs ∧ t.inLen.toNat = bs.length ∧
        (∀ j, bs.length ≤ j → t.ibufByte j = s.ibufByte j) ∧
        t = { s with pending := rest, ibuf := t.ibuf, inLen := t.inLen }

/-- `45_system.md` R190: the packet the host composes after COMPRESS is the tag 0x24, the client id and the result, and there is none after an
error. -/
def Obligations.PacketIsTagIdResult : Prop :=
  ∀ (s t : State) (clientId : Byte), exec .compress s = .next t →
    (t.errcode = 0#16 → packet clientId t = some (0x24#8 :: clientId :: t.outputBytes)) ∧
      (t.errcode ≠ 0#16 → packet clientId t = none)
end

