-- ==== Sys2Proof/Laws/BitCodec.lean ====
section
/-! SUPPORT. What one round of the bit writer does to a buffer, said once: its length and each of its bits. -/

namespace Sys2Proof.Machine

@[simp] theorem growTo_length (B : List Byte) (j : Nat) : (growTo B j).length = max B.length (j + 1) := by
  simp only [growTo, List.length_append, List.length_replicate]
  omega

/-- Growing adds zero bytes only, so no bit changes. -/
@[simp] theorem getBit_growTo (B : List Byte) (j q : Nat) : getBit (growTo B j) q = getBit B q := by
  have e : (growTo B j).getD (q / 8) 0#8 = B.getD (q / 8) 0#8 := by
    simp only [growTo, List.getD_eq_getElem?_getD, List.getElem?_append]
    split
    · rfl
    · rename_i h
      rw [List.getElem?_eq_none (l := B) (by omega), List.getElem?_replicate]
      split <;> rfl
  simp only [getBit, e]

theorem putBit_length (B : List Byte) (q : Nat) (b : Bool) : (putBit B q b).length = max B.length (q / 8 + 1) := by
  unfold putBit
  cases b <;> simp

/-- The writer's round ORs its bit in at its position and leaves every other bit alone. -/
theorem getBit_putBit (B : List Byte) (q r : Nat) (b : Bool) :
    getBit (putBit B q b) r = if r = q then (getBit B q || b) else getBit B r := by
  unfold putBit
  cases b with
  | false =>
    simp only [Bool.false_eq_true, if_false, getBit_growTo, Bool.or_false]
    split <;> simp_all
  | true =>
    simp only [if_true]
    rw [← getBit_growTo B (q / 8) q, ← getBit_growTo B (q / 8) r]
    have hlen : q / 8 < (growTo B (q / 8)).length := by rw [growTo_length]; omega
    generalize growTo B (q / 8) = G at hlen
    unfold getBit
    simp only [List.getD_eq_getElem?_getD, List.getElem?_modify]
    by_cases hb : q / 8 = r / 8
    · have hr : r / 8 < G.length := hb ▸ hlen
      simp only [hb, List.getElem?_eq_getElem hr, Option.getD_some, if_true]
      have h8 : r % 8 < 8 := Nat.mod_lt _ (by omega)
      by_cases hq : r = q
      · subst hq; simp [h8]
      · have hm : q % 8 ≠ r % 8 := fun h => hq (by omega)
        by_cases hlt : r % 8 < q % 8
        · simp [hq, hlt]
        · have : r % 8 - q % 8 ≠ 0 := by omega
          simp [hq, this]
    · have hq : r ≠ q := fun h => hb (by rw [h])
      simp [hb, hq]

end Sys2Proof.Machine
end

