-- ==== Sys2Proof/Laws/Build.lean ====
section
/-! SUPPORT. The laws of the node array inside BUILD: its size never changes, and what each operation does to each node. -/

namespace Sys2Proof.Machine

/-! ### Size -/

@[simp] theorem length_initInternals : initInternals.length = 255 :=
  List.length_replicate

theorem getElem?_initInternals (j : Nat) : initInternals[j]? = if j < 255 then some initInternal else none :=
  List.getElem?_replicate

@[simp] theorem length_initNodes (freq : Vector Word 256) : (initNodes freq).length = 511 := by
  simp [initNodes]

@[simp] theorem length_joinPair (N : List Node) (k s1 s2 : Nat) : (joinPair N k s1 s2).length = N.length := by
  simp [joinPair]

@[simp] theorem length_attach (N : List Node) (k s : Nat) : (attach k s N).length = N.length := by
  simp [attach]

@[simp] theorem length_mergeNodes (N : List Node) (k s1 s2 : Nat) : (mergeNodes N k s1 s2).length = N.length := by
  simp [mergeNodes]

@[simp] theorem length_mergeRound (N : List Node) (k : Nat) : (mergeRound N k).length = N.length := by
  unfold mergeRound
  split <;> simp

@[simp] theorem length_mergeRounds (N : List Node) (r : Nat) : (mergeRounds N r).length = N.length := by
  induction r with
  | zero => rfl
  | succ r ih => simp [mergeRounds, ih]

@[simp] theorem length_buildTree (freq : Vector Word 256) : (buildTree freq).length = 511 := by
  simp [buildTree]

@[simp] theorem length_assignCodes (N : List Node) : (assignCodes N).length = N.length := by
  simp [assignCodes]

/-! ### One node after one operation -/

theorem nodeAt_initNodes_leaf (freq : Vector Word 256) {i : Nat} (h : i < 256) :
    nodeAt (initNodes freq) i = initLeaf freq[i] := by
  simp [nodeAt, initNodes, h, List.getElem?_append]

theorem nodeAt_initNodes_internal (freq : Vector Word 256) {i : Nat} (h : 256 ≤ i) :
    nodeAt (initNodes freq) i = initInternal := by
  have h' : ¬ i < 256 := by omega
  simp only [nodeAt, initNodes, List.getD_eq_getElem?_getD, List.getElem?_append, List.length_map, Vector.length_toList, h',
    if_false, getElem?_initInternals]
  split <;> rfl

theorem nodeAt_joinPair (N : List Node) {k : Nat} (hk : k < N.length) (s1 s2 i : Nat) :
    nodeAt (joinPair N k s1 s2) i =
      if i = k then
        { nodeAt N k with
          frequency := (nodeAt N s1).frequency + (nodeAt N s2).frequency
          rightChild := BitVec.ofNat 9 s1
          leftChild := BitVec.ofNat 9 s2 }
      else nodeAt N i := by
  by_cases h : i = k
  · subst h
    simp [nodeAt, joinPair, hk]
  · have h' : k ≠ i := fun e => h e.symm
    simp [nodeAt, joinPair, h, h']

theorem nodeAt_attach (N : List Node) {s : Nat} (hs : s < N.length) (k i : Nat) :
    nodeAt (attach k s N) i =
      if i = s then { nodeAt N s with parentOffset := BitVec.ofNat 8 (k - 255) } else nodeAt N i := by
  by_cases h : i = s
  · subst h
    simp [nodeAt, attach, hs]
  · have h' : s ≠ i := fun e => h e.symm
    simp [nodeAt, attach, h, h']

theorem nodeAt_assignCodes (N : List Node) {i : Nat} (h : i < N.length) :
    nodeAt (assignCodes N) i = withCode N (nodeAt N i) i := by
  simp [nodeAt, assignCodes, h]

/-- Code assignment changes no field of the tree. -/
theorem withCode_tree (N : List Node) (n : Node) (i : Nat) :
    (withCode N n i).leftChild = n.leftChild ∧ (withCode N n i).rightChild = n.rightChild ∧
      (withCode N n i).parentOffset = n.parentOffset ∧ (withCode N n i).frequency = n.frequency := by
  unfold withCode
  split <;> simp

/-! ### The scan's candidates -/

theorem mem_unattachedFrom (N : List Node) (i : Nat) (s : Slot) :
    s ∈ unattachedFrom i N ↔
      ∃ j, ∃ h : j < N.length, N[j].parentOffset = 0#8 ∧ s = { index := i + j, frequency := N[j].frequency } := by
  induction N generalizing i with
  | nil => simp [unattachedFrom]
  | cons n ns ih =>
    have key : (∃ j, ∃ h : j < (n :: ns).length, (n :: ns)[j].parentOffset = 0#8 ∧
          s = { index := i + j, frequency := (n :: ns)[j].frequency }) ↔
        (n.parentOffset = 0#8 ∧ s = { index := i, frequency := n.frequency }) ∨ s ∈ unattachedFrom (i + 1) ns := by
      rw [ih]
      constructor
      · rintro ⟨j, hj, hp, hs⟩
        cases j with
        | zero => exact .inl ⟨hp, hs⟩
        | succ j => exact .inr ⟨j, by simpa using hj, by simpa using hp, by simp [hs]; omega⟩
      · rintro (⟨hp, hs⟩ | ⟨j, hj, hp, hs⟩)
        · exact ⟨0, by simp, hp, by simpa using hs⟩
        · exact ⟨j + 1, by simpa using hj, by simpa using hp, by simp [hs]; omega⟩
    rw [key, unattachedFrom]
    by_cases hp : n.parentOffset = 0#8 <;> simp [hp]

/-- A candidate of the scan is an unattached node below `k`, with its weight. -/
theorem mem_unattached (N : List Node) {k : Nat} (hk : k ≤ N.length) (s : Slot) :
    s ∈ unattached N k ↔
      s.index < k ∧ (nodeAt N s.index).parentOffset = 0#8 ∧ s.frequency = (nodeAt N s.index).frequency := by
  obtain ⟨i, f⟩ := s
  rw [unattached, mem_unattachedFrom]
  constructor
  · rintro ⟨j, hj, hp, hs⟩
    obtain ⟨rfl, rfl⟩ : i = j ∧ f = (List.take k N)[j].frequency := by simpa using hs
    have hj' : i < k ∧ i < N.length := by simpa using hj
    refine ⟨hj'.1, ?_, ?_⟩
    · simpa [nodeAt, hj'.2] using hp
    · simp [nodeAt, hj'.2]
  · rintro ⟨hi, hp, hf⟩
    have hi' : i < N.length := by simp only at hi; omega
    refine ⟨i, by simp at hi ⊢; omega, ?_, ?_⟩
    · simpa [nodeAt, hi'] using hp
    · simpa [nodeAt, hi'] using hf

/-- One candidate leaves a slot pair made of the old slots and the candidate, and never raises the smaller or the larger weight. -/
theorem considerSlot_cases (p : Slot × Slot) (c : Slot) :
    (considerSlot p c = p ∧ p.1.frequency ≤ c.frequency ∨ considerSlot p c = p ∧ p.2.frequency ≤ c.frequency) ∨
      (considerSlot p c = (c, p.2) ∧ p.2.frequency < p.1.frequency ∧ c.frequency < p.1.frequency) ∨
        (considerSlot p c = (p.1, c) ∧ p.1.frequency ≤ p.2.frequency ∧ c.frequency < p.2.frequency) := by
  unfold considerSlot
  split <;> split <;> simp_all [BitVec.not_lt]

end Sys2Proof.Machine
end

