-- ==== Sys2Proof/Laws/State.lean ====
section
/-! SUPPORT. One lemma per field per update of State, so that no proof unfolds a record update. -/

namespace Sys2Proof.Machine.State

variable (s : State)

/-! ### clearResults -/

@[simp] theorem clearResults_cmd : s.clearResults.cmd = s.cmd := rfl
@[simp] theorem clearResults_built : s.clearResults.built = s.built := rfl
@[simp] theorem clearResults_busy : s.clearResults.busy = s.busy := rfl
@[simp] theorem clearResults_pass : s.clearResults.pass = false := rfl
@[simp] theorem clearResults_errcode : s.clearResults.errcode = 0#16 := rfl
@[simp] theorem clearResults_inLen : s.clearResults.inLen = s.inLen := rfl
@[simp] theorem clearResults_outLen : s.clearResults.outLen = 0#18 := rfl
@[simp] theorem clearResults_bitLen : s.clearResults.bitLen = 0#20 := rfl
@[simp] theorem clearResults_nodeCount : s.clearResults.nodeCount = s.nodeCount := rfl
@[simp] theorem clearResults_nodes : s.clearResults.nodes = s.nodes := rfl
@[simp] theorem clearResults_ibuf : s.clearResults.ibuf = s.ibuf := rfl
@[simp] theorem clearResults_obuf : s.clearResults.obuf = s.obuf := rfl
@[simp] theorem clearResults_freq : s.clearResults.freq = s.freq := rfl
@[simp] theorem clearResults_pending : s.clearResults.pending = s.pending := rfl
@[simp] theorem clearResults_rdata : s.clearResults.rdata = s.rdata := rfl

/-! ### beginCommand -/

@[simp] theorem beginCommand_cmd : s.beginCommand.cmd = s.cmd := rfl
@[simp] theorem beginCommand_built : s.beginCommand.built = s.built := rfl
@[simp] theorem beginCommand_busy : s.beginCommand.busy = true := rfl
@[simp] theorem beginCommand_pass : s.beginCommand.pass = false := rfl
@[simp] theorem beginCommand_errcode : s.beginCommand.errcode = 0#16 := rfl
@[simp] theorem beginCommand_inLen : s.beginCommand.inLen = s.inLen := rfl
@[simp] theorem beginCommand_outLen : s.beginCommand.outLen = 0#18 := rfl
@[simp] theorem beginCommand_bitLen : s.beginCommand.bitLen = 0#20 := rfl
@[simp] theorem beginCommand_nodeCount : s.beginCommand.nodeCount = s.nodeCount := rfl
@[simp] theorem beginCommand_nodes : s.beginCommand.nodes = s.nodes := rfl
@[simp] theorem beginCommand_ibuf : s.beginCommand.ibuf = s.ibuf := rfl
@[simp] theorem beginCommand_obuf : s.beginCommand.obuf = s.obuf := rfl
@[simp] theorem beginCommand_freq : s.beginCommand.freq = s.freq := rfl
@[simp] theorem beginCommand_pending : s.beginCommand.pending = s.pending := rfl
@[simp] theorem beginCommand_rdata : s.beginCommand.rdata = s.rdata := rfl

/-! ### endCommand -/

@[simp] theorem endCommand_cmd : s.endCommand.cmd = s.cmd := rfl
@[simp] theorem endCommand_built : s.endCommand.built = s.built := rfl
@[simp] theorem endCommand_busy : s.endCommand.busy = false := rfl
@[simp] theorem endCommand_pass : s.endCommand.pass = s.pass := rfl
@[simp] theorem endCommand_errcode : s.endCommand.errcode = s.errcode := rfl
@[simp] theorem endCommand_inLen : s.endCommand.inLen = s.inLen := rfl
@[simp] theorem endCommand_outLen : s.endCommand.outLen = s.outLen := rfl
@[simp] theorem endCommand_bitLen : s.endCommand.bitLen = s.bitLen := rfl
@[simp] theorem endCommand_nodeCount : s.endCommand.nodeCount = s.nodeCount := rfl
@[simp] theorem endCommand_nodes : s.endCommand.nodes = s.nodes := rfl
@[simp] theorem endCommand_ibuf : s.endCommand.ibuf = s.ibuf := rfl
@[simp] theorem endCommand_obuf : s.endCommand.obuf = s.obuf := rfl
@[simp] theorem endCommand_freq : s.endCommand.freq = s.freq := rfl
@[simp] theorem endCommand_pending : s.endCommand.pending = s.pending := rfl
@[simp] theorem endCommand_rdata : s.endCommand.rdata = s.rdata := rfl

/-! ### raise -/

@[simp] theorem raise_cmd (e : CommandError) : (s.raise e).cmd = s.cmd := rfl
@[simp] theorem raise_built (e : CommandError) : (s.raise e).built = s.built := rfl
@[simp] theorem raise_busy (e : CommandError) : (s.raise e).busy = false := rfl
@[simp] theorem raise_pass (e : CommandError) : (s.raise e).pass = false := rfl
@[simp] theorem raise_errcode (e : CommandError) : (s.raise e).errcode = e.code := rfl
@[simp] theorem raise_inLen (e : CommandError) : (s.raise e).inLen = s.inLen := rfl
@[simp] theorem raise_outLen (e : CommandError) : (s.raise e).outLen = 0#18 := rfl
@[simp] theorem raise_bitLen (e : CommandError) : (s.raise e).bitLen = 0#20 := rfl
@[simp] theorem raise_nodeCount (e : CommandError) : (s.raise e).nodeCount = s.nodeCount := rfl
@[simp] theorem raise_nodes (e : CommandError) : (s.raise e).nodes = s.nodes := rfl
@[simp] theorem raise_ibuf (e : CommandError) : (s.raise e).ibuf = s.ibuf := rfl
@[simp] theorem raise_obuf (e : CommandError) : (s.raise e).obuf = s.obuf.forget := rfl
@[simp] theorem raise_freq (e : CommandError) : (s.raise e).freq = s.freq := rfl
@[simp] theorem raise_pending (e : CommandError) : (s.raise e).pending = s.pending := rfl
@[simp] theorem raise_rdata (e : CommandError) : (s.raise e).rdata = s.rdata := rfl

/-! ### deliver -/

@[simp] theorem deliver_cmd (bs : List Byte) (n : Nat) (p : Bool) : (s.deliver bs n p).cmd = s.cmd := rfl
@[simp] theorem deliver_built (bs : List Byte) (n : Nat) (p : Bool) : (s.deliver bs n p).built = s.built := rfl
@[simp] theorem deliver_busy (bs : List Byte) (n : Nat) (p : Bool) : (s.deliver bs n p).busy = false := rfl
@[simp] theorem deliver_pass (bs : List Byte) (n : Nat) (p : Bool) : (s.deliver bs n p).pass = p := rfl
@[simp] theorem deliver_errcode (bs : List Byte) (n : Nat) (p : Bool) : (s.deliver bs n p).errcode = s.errcode := rfl
@[simp] theorem deliver_inLen (bs : List Byte) (n : Nat) (p : Bool) : (s.deliver bs n p).inLen = s.inLen := rfl
@[simp] theorem deliver_outLen (bs : List Byte) (n : Nat) (p : Bool) : (s.deliver bs n p).outLen = BitVec.ofNat 18 bs.length := rfl
@[simp] theorem deliver_bitLen (bs : List Byte) (n : Nat) (p : Bool) : (s.deliver bs n p).bitLen = BitVec.ofNat 20 n := rfl
@[simp] theorem deliver_nodeCount (bs : List Byte) (n : Nat) (p : Bool) : (s.deliver bs n p).nodeCount = s.nodeCount := rfl
@[simp] theorem deliver_nodes (bs : List Byte) (n : Nat) (p : Bool) : (s.deliver bs n p).nodes = s.nodes := rfl
@[simp] theorem deliver_ibuf (bs : List Byte) (n : Nat) (p : Bool) : (s.deliver bs n p).ibuf = s.ibuf := rfl
@[simp] theorem deliver_obuf (bs : List Byte) (n : Nat) (p : Bool) : (s.deliver bs n p).obuf = s.obuf.holdResult bs := rfl
@[simp] theorem deliver_freq (bs : List Byte) (n : Nat) (p : Bool) : (s.deliver bs n p).freq = s.freq := rfl
@[simp] theorem deliver_pending (bs : List Byte) (n : Nat) (p : Bool) : (s.deliver bs n p).pending = s.pending := rfl
@[simp] theorem deliver_rdata (bs : List Byte) (n : Nat) (p : Bool) : (s.deliver bs n p).rdata = s.rdata := rfl

/-! ### deliverTree -/

@[simp] theorem deliverTree_cmd (ns : List Node) : (s.deliverTree ns).cmd = s.cmd := rfl
@[simp] theorem deliverTree_built (ns : List Node) : (s.deliverTree ns).built = true := rfl
@[simp] theorem deliverTree_busy (ns : List Node) : (s.deliverTree ns).busy = false := rfl
@[simp] theorem deliverTree_pass (ns : List Node) : (s.deliverTree ns).pass = s.pass := rfl
@[simp] theorem deliverTree_errcode (ns : List Node) : (s.deliverTree ns).errcode = s.errcode := rfl
@[simp] theorem deliverTree_inLen (ns : List Node) : (s.deliverTree ns).inLen = s.inLen := rfl
@[simp] theorem deliverTree_outLen (ns : List Node) : (s.deliverTree ns).outLen = s.outLen := rfl
@[simp] theorem deliverTree_bitLen (ns : List Node) : (s.deliverTree ns).bitLen = s.bitLen := rfl
@[simp] theorem deliverTree_nodeCount (ns : List Node) : (s.deliverTree ns).nodeCount = 511#9 := rfl
@[simp] theorem deliverTree_nodes (ns : List Node) : (s.deliverTree ns).nodes = { s.nodes with contents := some ns } := rfl
@[simp] theorem deliverTree_ibuf (ns : List Node) : (s.deliverTree ns).ibuf = s.ibuf := rfl
@[simp] theorem deliverTree_obuf (ns : List Node) : (s.deliverTree ns).obuf = s.obuf := rfl
@[simp] theorem deliverTree_freq (ns : List Node) : (s.deliverTree ns).freq = s.freq := rfl
@[simp] theorem deliverTree_pending (ns : List Node) : (s.deliverTree ns).pending = s.pending := rfl
@[simp] theorem deliverTree_rdata (ns : List Node) : (s.deliverTree ns).rdata = s.rdata := rfl

/-! ### applyReset -/

@[simp] theorem applyReset_cmd : s.applyReset.cmd = 0#32 := rfl
@[simp] theorem applyReset_built : s.applyReset.built = false := rfl
@[simp] theorem applyReset_busy : s.applyReset.busy = false := rfl
@[simp] theorem applyReset_pass : s.applyReset.pass = false := rfl
@[simp] theorem applyReset_errcode : s.applyReset.errcode = 0#16 := rfl
@[simp] theorem applyReset_inLen : s.applyReset.inLen = 0#16 := rfl
@[simp] theorem applyReset_outLen : s.applyReset.outLen = 0#18 := rfl
@[simp] theorem applyReset_bitLen : s.applyReset.bitLen = 0#20 := rfl
@[simp] theorem applyReset_nodeCount : s.applyReset.nodeCount = 0#9 := rfl
@[simp] theorem applyReset_nodes : s.applyReset.nodes = { contents := none, fill := s.nodes.fill + 1 } := rfl
@[simp] theorem applyReset_ibuf : s.applyReset.ibuf = s.ibuf.forget := rfl
@[simp] theorem applyReset_obuf : s.applyReset.obuf = s.obuf.forget := rfl
@[simp] theorem applyReset_freq : s.applyReset.freq = s.freq := rfl
@[simp] theorem applyReset_pending : s.applyReset.pending = s.pending := rfl
@[simp] theorem applyReset_rdata : s.applyReset.rdata = s.rdata := rfl

/-! ### withCommand -/

@[simp] theorem withCommand_cmd (w : Word) : (s.withCommand w).cmd = s.cmd := rfl
@[simp] theorem withCommand_built (w : Word) : (s.withCommand w).built = s.built := rfl
@[simp] theorem withCommand_busy (w : Word) : (s.withCommand w).busy = false := rfl
@[simp] theorem withCommand_pass (w : Word) : (s.withCommand w).pass = s.pass := rfl
@[simp] theorem withCommand_errcode (w : Word) : (s.withCommand w).errcode = s.errcode := rfl
@[simp] theorem withCommand_inLen (w : Word) : (s.withCommand w).inLen = s.inLen := rfl
@[simp] theorem withCommand_outLen (w : Word) : (s.withCommand w).outLen = s.outLen := rfl
@[simp] theorem withCommand_bitLen (w : Word) : (s.withCommand w).bitLen = s.bitLen := rfl
@[simp] theorem withCommand_nodeCount (w : Word) : (s.withCommand w).nodeCount = s.nodeCount := rfl
@[simp] theorem withCommand_nodes (w : Word) : (s.withCommand w).nodes = s.nodes := rfl
@[simp] theorem withCommand_ibuf (w : Word) : (s.withCommand w).ibuf = s.ibuf := rfl
@[simp] theorem withCommand_obuf (w : Word) : (s.withCommand w).obuf = s.obuf := rfl
@[simp] theorem withCommand_freq (w : Word) : (s.withCommand w).freq = s.freq := rfl
@[simp] theorem withCommand_pending (w : Word) : (s.withCommand w).pending = .memWrite 0x00000 4 w :: s.pending := rfl
@[simp] theorem withCommand_rdata (w : Word) : (s.withCommand w).rdata = s.rdata := rfl

end Sys2Proof.Machine.State
end

