-- ==== Sys2Proof/Laws/Memory.lean ====
section
/-! SUPPORT. The laws of the byte memories: read after write, and every operation keeps the canonical form. -/

namespace Sys2Proof.Machine

/-! ### Cell lists -/

theorem lookupCell_insertCell (cs : List Host.Cell) (j k : Nat) (v : Byte) :
    lookupCell (insertCell j v cs) k = if k = j then some v else lookupCell cs k := by
  induction cs with
  | nil => simp [insertCell, lookupCell]
  | cons c cs ih =>
    obtain ⟨a, b⟩ := c
    unfold insertCell
    split
    · simp [lookupCell]
    · split
      · subst_vars
        simp only [lookupCell]
        split <;> rfl
      · simp only [lookupCell, ih]
        split <;> split <;> simp_all

theorem lookupCell_cellsFrom (bs : List Byte) (i k : Nat) :
    lookupCell (cellsFrom i bs) k = if i ≤ k then bs[k - i]? else none := by
  induction bs generalizing i with
  | nil => simp [cellsFrom, lookupCell]
  | cons b bs ih =>
    simp only [cellsFrom, lookupCell, ih]
    by_cases h : k = i
    · simp [h]
    · by_cases h' : i ≤ k
      · obtain ⟨d, rfl⟩ : ∃ d, k = i + 1 + d := ⟨k - i - 1, by omega⟩
        have e : i + 1 + d - i = d + 1 := by omega
        simp [h, h', e]
      · have h2 : ¬ i + 1 ≤ k := by omega
        simp [h, h', h2]

theorem cellsRise_of_le {size lo lo' : Nat} (h : lo' ≤ lo) (cs : List Host.Cell)
    (hr : cellsRise size lo cs = true) : cellsRise size lo' cs = true := by
  cases cs with
  | nil => rfl
  | cons c cs =>
    simp only [cellsRise, Bool.and_eq_true, decide_eq_true_eq] at hr ⊢
    exact ⟨⟨by omega, hr.1.2⟩, hr.2⟩

theorem cellsRise_insertCell {size j : Nat} (hj : j < size) (v : Byte) (cs : List Host.Cell) {lo : Nat}
    (hlo : lo ≤ j) (hr : cellsRise size lo cs = true) : cellsRise size lo (insertCell j v cs) = true := by
  induction cs generalizing lo with
  | nil => simp [insertCell, cellsRise, hlo, hj]
  | cons c cs ih =>
    obtain ⟨a, b⟩ := c
    simp only [cellsRise, Bool.and_eq_true, decide_eq_true_eq] at hr
    unfold insertCell
    split
    · simp only [cellsRise, Bool.and_eq_true, decide_eq_true_eq]
      exact ⟨⟨hlo, hj⟩, ⟨by omega, hr.1.2⟩, hr.2⟩
    · split
      · subst_vars
        simp only [cellsRise, Bool.and_eq_true, decide_eq_true_eq]
        exact hr
      · simp only [cellsRise, Bool.and_eq_true, decide_eq_true_eq]
        exact ⟨hr.1, ih (by omega) hr.2⟩

theorem cellsRise_cellsFrom {size : Nat} (bs : List Byte) {i : Nat} (h : i + bs.length ≤ size) :
    cellsRise size i (cellsFrom i bs) = true := by
  induction bs generalizing i with
  | nil => rfl
  | cons b bs ih =>
    simp only [List.length_cons] at h
    simp only [cellsFrom, cellsRise, Bool.and_eq_true, decide_eq_true_eq]
    exact ⟨⟨Nat.le_refl _, by omega⟩, ih (by omega)⟩

/-! ### Memories -/

theorem Memory.get?_write (m : Memory) (j k : Nat) (v : Byte) :
    (m.write j v).get? k = if k = j then some v else m.get? k :=
  lookupCell_insertCell m.cells j k v

@[simp] theorem Memory.get?_write_same (m : Memory) (j : Nat) (v : Byte) : (m.write j v).get? j = some v := by
  simp [Memory.get?_write]

theorem Memory.get?_write_other (m : Memory) {j k : Nat} (h : k ≠ j) (v : Byte) :
    (m.write j v).get? k = m.get? k := by
  simp [Memory.get?_write, h]

@[simp] theorem Memory.fill_write (m : Memory) (j : Nat) (v : Byte) : (m.write j v).fill = m.fill := rfl

@[simp] theorem Memory.get?_forget (m : Memory) (k : Nat) : m.forget.get? k = none := rfl

@[simp] theorem Memory.fill_forget (m : Memory) : m.forget.fill = m.fill + 1 := rfl

@[simp] theorem Memory.get?_holdResult (m : Memory) (bs : List Byte) (k : Nat) : (m.holdResult bs).get? k = bs[k]? := by
  simp [Memory.get?, Memory.holdResult, lookupCell_cellsFrom]

@[simp] theorem Memory.fill_holdResult (m : Memory) (bs : List Byte) : (m.holdResult bs).fill = m.fill + 1 := rfl

@[simp] theorem Memory.get?_unwritten (k : Nat) : Memory.unwritten.get? k = none := rfl

theorem Memory.wf_write {size : Nat} {m : Memory} (h : m.wf size = true) {j : Nat} (hj : j < size) (v : Byte) :
    (m.write j v).wf size = true :=
  cellsRise_insertCell hj v m.cells (Nat.zero_le _) h

@[simp] theorem Memory.wf_forget (size : Nat) (m : Memory) : m.forget.wf size = true := rfl

theorem Memory.wf_holdResult {size : Nat} (m : Memory) {bs : List Byte} (h : bs.length ≤ size) :
    (m.holdResult bs).wf size = true :=
  cellsRise_cellsFrom bs (by omega)

@[simp] theorem Memory.wf_unwritten (size : Nat) : Memory.unwritten.wf size = true := rfl

theorem reset_ibuf_wf : State.reset.ibuf.wf 65536 = true := rfl

theorem reset_obuf_wf : State.reset.obuf.wf 262144 = true := rfl

/-! ### Buffer cells of a state -/

@[simp] theorem State.ibufByte_write_same (s : State) (j : Nat) (v : Byte) :
    State.ibufByte { s with ibuf := s.ibuf.write j v } j = v := by
  simp [State.ibufByte]

theorem State.ibufByte_write_other (s : State) {j k : Nat} (h : k ≠ j) (v : Byte) :
    State.ibufByte { s with ibuf := s.ibuf.write j v } k = s.ibufByte k := by
  simp [State.ibufByte, Memory.get?_write_other _ h]

/-- The input bytes depend on `IN_LEN` and `IBUF` alone. -/
theorem State.inputBytes_congr {s t : State} (hl : t.inLen = s.inLen) (hi : t.ibuf = s.ibuf) :
    t.inputBytes = s.inputBytes := by
  simp [State.inputBytes, State.ibufByte, hl, hi]

@[simp] theorem State.inputBytes_beginCommand (s : State) : s.beginCommand.inputBytes = s.inputBytes :=
  State.inputBytes_congr rfl rfl

/-- Reading `N` depends on the node memory alone. -/
theorem State.node_congr {s t : State} (h : t.nodes = s.nodes) : t.node = s.node := by
  funext i
  simp [State.node, h]

@[simp] theorem State.node_beginCommand (s : State) : s.beginCommand.node = s.node :=
  State.node_congr rfl

@[simp] theorem State.inputBytes_length (s : State) : s.inputBytes.length = s.inLen.toNat := by
  simp [State.inputBytes]

/-- A delivered result reads back as it was delivered, when `OUT_LEN` can hold its length. -/
theorem State.outputBytes_deliver (s : State) {bs : List Byte} (h : bs.length < 2 ^ 18) (n : Nat) (p : Bool) :
    (s.deliver bs n p).outputBytes = bs := by
  have h' : bs.length < 262144 := by simpa using h
  apply List.ext_getElem
  · simpa [State.outputBytes] using h'
  · intro i h1 h2
    simp [State.outputBytes, State.obufByte, List.getElem?_eq_getElem h2]

@[simp] theorem State.outputBytes_raise (s : State) (e : CommandError) : (s.raise e).outputBytes = [] := by
  simp [State.outputBytes]

@[simp] theorem State.obufByte_raise (s : State) (e : CommandError) (j : Nat) :
    (s.raise e).obufByte j = Config.obufFree (s.obuf.fill + 1) j := by
  simp [State.obufByte]

end Sys2Proof.Machine
end

