-- ==== Sys2Proof/Laws/Commands.lean ====
section
/-! SUPPORT. What each command can do, said once per command and once for all of them. -/

namespace Sys2Proof.Machine

/-! ### Sizes of the results -/

theorem putBits_length (B : List Byte) (off : Nat) (v : BitVec 9) (n : Nat) (h : off ≤ 8 * B.length) :
    (putBits B off v n).length = max B.length ((off + n + 7) / 8) := by
  induction n with
  | zero => simp only [putBits]; omega
  | succ n ih => rw [putBits, putBit_length, ih]; omega

theorem packCodes_length (node : Nat → Node) (p : List Byte) (B : List Byte) (off : Nat) (h : off ≤ 8 * B.length) :
    (packCodes node B off p).length = max B.length ((off + totalBits node p + 7) / 8) := by
  induction p generalizing B off with
  | nil => simp only [packCodes, totalBits, List.map_nil, List.sum_nil]; omega
  | cons b p ih =>
    rw [packCodes, ih _ _ (by rw [putBits_length _ _ _ _ h]; omega), putBits_length _ _ _ _ h]
    simp only [totalBits, List.map_cons, List.sum_cons]
    omega

/-- The compressed form has exactly the length COMPRESS computed beforehand. -/
theorem compressedBuffer_length (node : Nat → Node) (p : List Byte) :
    (compressedBuffer node p).length = encodedBytes node p := by
  simp only [compressedBuffer, List.length_modify, encodedBytes]
  rw [packCodes_length _ _ _ _ (by simp)]
  simp only [List.length_cons, List.length_nil]
  omega

theorem totalBits_le (node : Nat → Node) (p : List Byte) : totalBits node p ≤ 15 * p.length := by
  induction p with
  | nil => simp [totalBits]
  | cons b p ih =>
    simp only [totalBits, List.map_cons, List.sum_cons, List.length_cons] at ih ⊢
    have : codeLengthOf node b < 2 ^ 4 := (node b.toNat).codeLength.isLt
    omega

/-- A decoded Huffman symbol moves the cursor on, by at least one bit after its prefix, and never past `bit_length`. -/
theorem decodeSymbol_cursor {node : Nat → Node} {D : List Byte} {len fuel n c : Nat} {v : Byte} {c' : Nat}
    (h : decodeSymbol node D len fuel n c = .ok (v, c')) : c < c' ∧ c' ≤ len := by
  induction fuel generalizing n c with
  | zero => simp [decodeSymbol] at h
  | succ fuel ih =>
    simp only [decodeSymbol] at h
    split at h
    · cases h
    · split at h
      · cases h; omega
      · have := ih h; omega

theorem decodeOne_cursor {node : Nat → Node} {D : List Byte} {len c : Nat} {v : Byte} {c' : Nat}
    (h : decodeOne node D len c = .ok (v, c')) : c + 2 ≤ c' ∧ c' ≤ len := by
  unfold decodeOne at h
  split at h
  · have := decodeSymbol_cursor h; omega
  · unfold decodeEscape at h
    split at h
    · cases h
    · cases h; omega

/-- Every decoded symbol takes at least two stream bits. -/
theorem decodeLoop_length {node : Nat → Node} {D : List Byte} {len fuel c : Nat} {out : List Byte}
    (h : decodeLoop node D len fuel c = .ok out) (hc : c ≤ len) : 2 * out.length ≤ len - c := by
  induction fuel generalizing c out with
  | zero => cases h; simp
  | succ fuel ih =>
    simp only [decodeLoop] at h
    split at h
    · split at h
      · cases h
      · rename_i v c' h1
        have hc' := decodeOne_cursor h1
        split at h
        · cases h
        · rename_i vs h2
          cases h
          have := ih h2 hc'.2
          simp only [List.length_cons]
          omega
    · cases h; simp

theorem bitLength_le (D : List Byte) (pad : Nat) : bitLength D pad ≤ 8 * (D.length - 1) := by
  unfold bitLength
  omega

/-! ### Each command -/

theorem execNop_eq (s : State) : execNop s = .next s.beginCommand.endCommand := rfl

theorem execIllegal_eq (s : State) : execIllegal s = .next (s.beginCommand.raise .reservedOpcode) := rfl

/-- BUILD: refused when built, otherwise it delivers the tree of `FREQ`. -/
theorem execBuild_cases {s t : State} (h : execBuild s = .next t) :
    (s.built = true ∧ t = s.beginCommand.raise .alreadyBuilt) ∨
      (s.built = false ∧ t = s.beginCommand.deliverTree (buildNodes s.freq)) := by
  unfold execBuild at h
  simp only [State.beginCommand_built, State.beginCommand_freq] at h
  cases hb : s.built with
  | true => simp only [hb, if_true] at h; cases h; exact .inl ⟨rfl, rfl⟩
  | false => simp only [hb, Bool.false_eq_true, if_false] at h; cases h; exact .inr ⟨rfl, rfl⟩

/-- COMPRESS: two errors, the pass-through path, the compressed path. -/
theorem execCompress_cases {s t : State} (h : execCompress s = .next t) :
    (s.built = false ∧ t = s.beginCommand.raise .notBuilt) ∨
      (s.built = true ∧ firstByteHigh s.inputBytes = true ∧ t = s.beginCommand.raise .firstByteHighBit) ∨
      (s.built = true ∧ firstByteHigh s.inputBytes = false ∧ s.inLen.toNat ≤ encodedBytes s.node s.inputBytes ∧
        t = s.beginCommand.deliver s.inputBytes (totalBits s.node s.inputBytes) true) ∨
      (s.built = true ∧ firstByteHigh s.inputBytes = false ∧ encodedBytes s.node s.inputBytes < s.inLen.toNat ∧
        t = s.beginCommand.deliver (compressedBuffer s.node s.inputBytes) (totalBits s.node s.inputBytes) false) := by
  unfold execCompress at h
  simp only [State.beginCommand_built, State.inputBytes_beginCommand, State.node_beginCommand,
    State.inputBytes_length] at h
  cases hb : s.built with
  | false => simp only [hb, if_true] at h; cases h; exact .inl ⟨rfl, rfl⟩
  | true =>
    simp only [hb, Bool.true_eq_false, if_false] at h
    right
    cases hf : firstByteHigh s.inputBytes with
    | true => simp only [hf, if_true] at h; cases h; exact .inl ⟨rfl, rfl, rfl⟩
    | false =>
      simp only [hf, Bool.false_eq_true, if_false] at h
      right
      split at h
      · rename_i hl; cases h; exact .inl ⟨rfl, rfl, hl, rfl⟩
      · rename_i hl; cases h; exact .inr ⟨rfl, rfl, by omega, rfl⟩

/-- DECOMPRESS: two admission errors, the pass-through path, the padding error, a decode error, a decoded stream. -/
theorem execDecompress_cases {s t : State} (h : execDecompress s = .next t) :
    (s.built = false ∧ t = s.beginCommand.raise .notBuilt) ∨
      (s.built = true ∧ s.inputBytes = [] ∧ t = s.beginCommand.raise .emptyInput) ∨
      ∃ b rest, s.built = true ∧ s.inputBytes = b :: rest ∧
        ((headerFlag b = false ∧ t = s.beginCommand.deliver s.inputBytes 0 true) ∨
          (headerFlag b = true ∧ 8 * rest.length < headerPad b ∧
            t = s.beginCommand.raise .paddingExceedsBits) ∨
          (headerFlag b = true ∧ headerPad b ≤ 8 * rest.length ∧
            ((∃ e, decodeStream s.node s.inputBytes (8 * rest.length - headerPad b) = .error e ∧
                t = s.beginCommand.raise e) ∨
              ∃ out, decodeStream s.node s.inputBytes (8 * rest.length - headerPad b) = .ok out ∧
                t = s.beginCommand.deliver out (8 * rest.length - headerPad b) false))) := by
  unfold execDecompress at h
  simp only [State.beginCommand_built, State.inputBytes_beginCommand, State.node_beginCommand] at h
  cases hb : s.built with
  | false => simp only [hb, if_true] at h; cases h; exact .inl ⟨rfl, rfl⟩
  | true =>
    simp only [hb, Bool.true_eq_false, if_false] at h
    right
    cases hi : s.inputBytes with
    | nil => simp only [hi] at h; cases h; exact .inl ⟨rfl, rfl, rfl⟩
    | cons b rest =>
      right
      refine ⟨b, rest, rfl, rfl, ?_⟩
      simp only [hi] at h
      have hlen : bitLength (b :: rest) (headerPad b) = 8 * rest.length - headerPad b := by
        simp only [bitLength, List.length_cons]
        omega
      rw [hlen] at h
      cases hf : headerFlag b with
      | false => simp only [hf, if_true] at h; cases h; exact .inl ⟨rfl, rfl⟩
      | true =>
        right
        simp only [hf, Bool.true_eq_false, if_false, List.length_cons] at h
        split at h
        · rename_i hp; cases h; exact .inl ⟨rfl, by omega, rfl⟩
        · rename_i hp
          refine .inr ⟨rfl, by omega, ?_⟩
          split at h
          · rename_i e he; cases h; exact .inl ⟨e, he, rfl⟩
          · rename_i out ho; cases h; exact .inr ⟨out, ho, rfl⟩

/-! ### All commands -/

/-- Everything a command can do to the state: NOP's clear, an error, BUILD's tree, or a result that fits `OUT_LEN` and `BITLEN`. -/
theorem exec_cases {i : Instr} {s t : State} (h : exec i s = .next t) :
    (i = .nop ∧ t = s.beginCommand.endCommand) ∨
      (∃ e, t = s.beginCommand.raise e) ∨
      (i = .build ∧ s.built = false ∧ t = s.beginCommand.deliverTree (buildNodes s.freq)) ∨
      ∃ bs n p, (i = .compress ∨ i = .decompress) ∧ s.built = true ∧ bs.length < 2 ^ 18 ∧ n < 2 ^ 20 ∧
        t = s.beginCommand.deliver bs n p := by
  have hin : s.inLen.toNat < 2 ^ 16 := s.inLen.isLt
  cases i with
  | nop => exact .inl ⟨rfl, by cases h; rfl⟩
  | build =>
    obtain ⟨_, rfl⟩ | ⟨hb, rfl⟩ := execBuild_cases h
    · exact .inr (.inl ⟨_, rfl⟩)
    · exact .inr (.inr (.inl ⟨rfl, hb, rfl⟩))
  | compress =>
    have htb := totalBits_le s.node s.inputBytes
    rw [State.inputBytes_length] at htb
    obtain ⟨_, rfl⟩ | ⟨_, _, rfl⟩ | ⟨hb, _, _, rfl⟩ | ⟨hb, _, hl, rfl⟩ := execCompress_cases h
    · exact .inr (.inl ⟨_, rfl⟩)
    · exact .inr (.inl ⟨_, rfl⟩)
    · exact .inr (.inr (.inr ⟨_, _, _, .inl rfl, hb, by rw [State.inputBytes_length]; omega, by omega, rfl⟩))
    · exact .inr (.inr (.inr ⟨_, _, _, .inl rfl, hb, by rw [compressedBuffer_length]; omega, by omega, rfl⟩))
  | decompress =>
    obtain ⟨_, rfl⟩ | ⟨_, _, rfl⟩ | ⟨b, rest, hb, hi, hc⟩ := execDecompress_cases h
    · exact .inr (.inl ⟨_, rfl⟩)
    · exact .inr (.inl ⟨_, rfl⟩)
    · have hr : rest.length + 1 = s.inLen.toNat := by rw [← State.inputBytes_length, hi, List.length_cons]
      obtain ⟨_, rfl⟩ | ⟨_, _, rfl⟩ | ⟨_, _, ⟨e, _, rfl⟩ | ⟨out, ho, rfl⟩⟩ := hc
      · exact .inr (.inr (.inr ⟨_, _, _, .inr rfl, hb, by rw [State.inputBytes_length]; omega, by omega, rfl⟩))
      · exact .inr (.inl ⟨_, rfl⟩)
      · exact .inr (.inl ⟨_, rfl⟩)
      · have := decodeLoop_length ho (Nat.zero_le _)
        exact .inr (.inr (.inr ⟨_, _, _, .inr rfl, hb, by omega, by omega, rfl⟩))

end Sys2Proof.Machine
end

