-- ==== Sys2Proof/Laws/PerInstr.lean ====
section
/-! SUPPORT. Facts about every command as syntax, one lemma per constructor. -/

namespace Sys2Proof.Laws.EncodingFormat

/-- Format `C` of `30_encoding.md` R99: the encoding selects the command's own row of the table, and its bits 31:8 are 0. -/
def Statement (i : Instr) : Prop :=
  i.wellFormed = true ∧ (encode i).extractLsb' 8 24 = 0#24 ∧
    opcodeTable.filter (·.selects (encode i)) = opcodeTable.filter (·.command == i)

theorem nop : Statement .nop := by unfold Statement; decide

theorem build : Statement .build := by unfold Statement; decide

theorem compress : Statement .compress := by unfold Statement; decide

theorem decompress : Statement .decompress := by unfold Statement; decide

end Sys2Proof.Laws.EncodingFormat
end

