-- ==== Sys2Proof/Laws/Port.lean ====
section
/-! SUPPORT. What the port and one step can do, said once. -/

namespace Sys2Proof.Machine

/-- The decoder as a chain of tests, the form of `45_system.md` R185. -/
theorem decode_eq (w : Word) :
    decode w = if w = 0#32 then .ok .nop else if w = 1#32 then .ok .build else
      if w = 2#32 then .ok .compress else if w = 3#32 then .ok .decompress else .error .reservedOpcode := by
  have hm : w &&& 0xFFFFFFFF#32 = w := BitVec.and_allOnes
  by_cases h0 : w = 0#32
  · subst h0; rfl
  · by_cases h1 : w = 1#32
    · subst h1; rfl
    · by_cases h2 : w = 2#32
      · subst h2; rfl
      · by_cases h3 : w = 3#32
        · subst h3; rfl
        · have b0 : (w == 0#32) = false := by simpa using h0
          have b1 : (w == 1#32) = false := by simpa using h1
          have b2 : (w == 2#32) = false := by simpa using h2
          have b3 : (w == 3#32) = false := by simpa using h3
          simp [decode, opcodeTable, OpcodeRow.selects, List.find?, hm, h0, h1, h2, h3, b1, b2, b3]

/-- Where an access lands: the address, and the width and alignment its region takes. -/
theorem locate_ok_cases {addr : Addr} {n : Nat} {p : Place} (h : locate addr n = .ok p) :
    (n = 4 ∧ addr.toNat % 4 = 0 ∧
        ((addr.toNat < 0x400 ∧ p = .register (addr.toNat / 4)) ∨
          (0x400 ≤ addr.toNat ∧ addr.toNat < 0x800 ∧ p = .freqWord ((addr.toNat - 0x400) / 4)) ∨
          (0x2000 ≤ addr.toNat ∧ addr.toNat < 0x3FF0 ∧
            p = .nodeWord ((addr.toNat - 0x2000) / 16) ((addr.toNat - 0x2000) / 4 % 4)))) ∨
      (n = 1 ∧
        ((0x10000 ≤ addr.toNat ∧ addr.toNat < 0x20000 ∧ p = .ibufCell (addr.toNat - 0x10000)) ∨
          (0x40000 ≤ addr.toNat ∧ addr.toNat < 0x80000 ∧ p = .obufCell (addr.toNat - 0x40000)))) := by
  simp only [locate, wordPlace, bytePlace] at h
  split at h
  · split at h
    · cases h
    · split at h
      · cases h
      · cases h; left; refine ⟨by omega, by omega, .inl ⟨by omega, rfl⟩⟩
  · split at h
    · split at h
      · cases h
      · split at h
        · cases h
        · cases h; left; refine ⟨by omega, by omega, .inr (.inl ⟨by omega, by omega, rfl⟩)⟩
    · split at h
      · cases h
      · split at h
        · split at h
          · cases h
          · split at h
            · cases h
            · cases h; left; refine ⟨by omega, by omega, .inr (.inr ⟨by omega, by omega, rfl⟩)⟩
        · split at h
          · cases h
          · split at h
            · split at h
              · cases h
              · cases h; right; exact ⟨by omega, .inl ⟨by omega, by omega, rfl⟩⟩
            · split at h
              · cases h
              · split at h
                · split at h
                  · cases h
                  · cases h; right; exact ⟨by omega, .inr ⟨by omega, by omega, rfl⟩⟩
                · cases h

/-- Every way a write to `CMD` ends: a command, or the illegal command's error. -/
theorem writeCmd_cases {w : Word} {s t : State} (h : writeCmd w s = .next t) :
    (∃ i, decode w = .ok i ∧ exec i { s with cmd := w } = .next t) ∨
      ((∃ e, decode w = .error e) ∧ t = ({ s with cmd := w } : State).beginCommand.raise .reservedOpcode) := by
  unfold writeCmd at h
  split at h
  · rename_i i hi; exact .inl ⟨i, hi, h⟩
  · rename_i e he; cases h; exact .inr ⟨⟨e, he⟩, rfl⟩

/-- Everything a step can do: idle, reset, a read, a write to `CMD`, to `IN_LEN`, to an `IBUF` cell, or an ignored write. In every case
but the first, `s` with its first pending step taken is what the effect starts from. -/
theorem step_cases {s t : State} (h : step s = .next t) :
    (s.pending = [] ∧ t = s) ∨
      ∃ e rest, s.pending = e :: rest ∧
        ((e = .rst ∧ t = ({ s with pending := rest } : State).applyReset) ∨
          (s.busy = false ∧
            ((∃ addr n p, e = .memRead addr n ∧ locate addr n = .ok p ∧
                t = { s with pending := rest, rdata := ({ s with pending := rest } : State).readPlace p }) ∨
              ∃ addr n v, e = .memWrite addr n v ∧
                ((locate addr n = .ok (.register 0) ∧ writeCmd v { s with pending := rest } = .next t) ∨
                  (locate addr n = .ok (.register 3) ∧ t = { s with pending := rest, inLen := v.setWidth 16 }) ∨
                  (∃ j, locate addr n = .ok (.ibufCell j) ∧
                    t = { s with pending := rest, ibuf := s.ibuf.write j (v.setWidth 8) }) ∨
                  ((∃ p, locate addr n = .ok p) ∧ t = { s with pending := rest }))))) := by
  unfold step stepPending at h
  split at h
  · rename_i hp; cases h; exact .inl ⟨hp, rfl⟩
  · rename_i e rest hp
    refine .inr ⟨e, rest, hp, ?_⟩
    cases e with
    | rst => cases h; exact .inl ⟨rfl, rfl⟩
    | memRead addr n =>
      right
      simp only [hostStep] at h
      split at h
      · cases h
      · rename_i hb
        refine ⟨by simpa using hb, .inl ?_⟩
        unfold memRead at h
        split at h
        · rename_i e' _; cases e' <;> cases h
        · rename_i p hl; cases h; exact ⟨addr, n, p, rfl, hl, rfl⟩
    | memWrite addr n v =>
      right
      simp only [hostStep] at h
      split at h
      · cases h
      · rename_i hb
        refine ⟨by simpa using hb, .inr ⟨addr, n, v, rfl, ?_⟩⟩
        unfold memWrite at h
        split at h
        · rename_i e' _; cases e' <;> cases h
        · rename_i p hl
          unfold writePlace at h
          split at h
          · exact .inl ⟨hl, h⟩
          · cases h; exact .inr (.inl ⟨hl, rfl⟩)
          · cases h; exact .inr (.inr (.inr ⟨⟨_, hl⟩, rfl⟩))
          · cases h; exact .inr (.inr (.inr ⟨⟨_, hl⟩, rfl⟩))
          · cases h; exact .inr (.inr (.inr ⟨⟨_, hl⟩, rfl⟩))
          · cases h; exact .inr (.inr (.inl ⟨_, hl, rfl⟩))
          · cases h; exact .inr (.inr (.inr ⟨⟨_, hl⟩, rfl⟩))

/-- A step whose next host step is a transaction, when the port is free, is that transaction. -/
theorem step_memWrite {s : State} {addr : Addr} {n : Nat} {v : Word} {rest : List HostStep} (hb : s.busy = false)
    (hp : s.pending = .memWrite addr n v :: rest) : step s = memWrite addr n v { s with pending := rest } := by
  simp [step, stepPending, hp, hostStep, hb]

theorem step_memRead {s : State} {addr : Addr} {n : Nat} {rest : List HostStep} (hb : s.busy = false)
    (hp : s.pending = .memRead addr n :: rest) : step s = memRead addr n { s with pending := rest } := by
  simp [step, stepPending, hp, hostStep, hb]

end Sys2Proof.Machine
end

