-- ==== Sys2Proof/Tests/Slice0.lean ====
section
/-! SUPPORT. The model's own tests. Expected values come from spec/95_test_vectors.md and from the worked examples of the rules,
never from the model; then a witness for the hypotheses of each statement of Certificates/Slice0. -/

namespace Sys2Proof.Tests

open Sys2Proof.Machine

/-! ### Well-formedness smoke tests: one ill-formed access per check (V-M8). A command word has no operand, so no ill-formed
command exists. -/

theorem test_wf_refuses_misaligned_word : (HostStep.memRead 0x00002#20 4).wellFormed = false := by decide
theorem test_wf_refuses_byte_of_register : (HostStep.memRead 0x00000#20 1).wellFormed = false := by decide
theorem test_wf_refuses_word_of_buffer : (HostStep.memRead 0x10000#20 4).wellFormed = false := by decide
theorem test_wf_refuses_unmapped : (HostStep.memWrite 0x80000#20 4 0).wellFormed = false := by decide
theorem test_wf_takes_last_node_word : (HostStep.memRead 0x03FEC#20 4).wellFormed = true := by decide
theorem test_wf_takes_every_command : [Instr.nop, .build, .compress, .decompress].all Instr.wellFormed = true := by decide

/-! ### Decoding: words written out bit by bit from 30_encoding.md R99; V-S3 to V-S5 -/

theorem test_decode_nop : decode 0b00000000000000000000000000000000#32 = .ok .nop := by decide
theorem test_decode_build : decode 0b00000000000000000000000000000001#32 = .ok .build := by decide
theorem test_decode_compress : decode 0b00000000000000000000000000000010#32 = .ok .compress := by decide
theorem test_decode_decompress : decode 0b00000000000000000000000000000011#32 = .ok .decompress := by decide
theorem test_decode_refuses_four : decode 0b00000000000000000000000000000100#32 = .error .reservedOpcode := by decide
theorem test_decode_refuses_high_bits : decode 0x00000101#32 = .error .reservedOpcode := by decide
theorem test_decode_refuses_all_ones : decode 0xFFFFFFFF#32 = .error .reservedOpcode := by decide
theorem test_decodeTableWord : decodeTableWord 32 3 = some .decompress := by decide
theorem test_rows_disjoint : opcodeTable.Pairwise fun a b => a.pattern &&& b.mask ≠ b.pattern := by decide

/-! ### Small states -/

/-- What the machine answers, as the next state if there is one. -/
def next? (o : Host.Outcome State Fault Refusal) : Option State :=
  match o with
  | .next s => some s
  | .fault _ => none
  | .refused _ => none

/-- The reset state with a payload in `IBUF`. -/
def loaded (bs : List Byte) : State :=
  { State.reset with ibuf := { cells := cellsFrom 0 bs, fill := 0 }, inLen := BitVec.ofNat 16 bs.length }

/-- The part of table T1's tree (V-B2, V-C1) that the vectors below walk: leaves 0, 1, 2, 7 and 0xFF, and the internal nodes 502 to
510. Every other entry is left as a leaf with an escape code. -/
def t1Node (i : Nat) : Node :=
  let leaf (po : BitVec 8) (bits : BitVec 9) (len : BitVec 4) : Node :=
    { leftChild := 511, rightChild := 511, parentOffset := po, frequency := 0, codeBits := bits, codeLength := len }
  let internal (po : BitVec 8) (r l : BitVec 9) : Node :=
    { leftChild := l, rightChild := r, parentOffset := po, frequency := 0, codeBits := 0, codeLength := 0 }
  match i with
  | 0 => leaf 255 3 2
  | 1 => leaf 254 1 3
  | 2 => leaf 253 13 4
  | 7 => leaf 248 14 9
  | 255 => leaf 120 510 9
  | 502 => internal 248 8 501
  | 503 => internal 249 502 7
  | 504 => internal 250 6 503
  | 505 => internal 251 504 5
  | 506 => internal 252 4 505
  | 507 => internal 253 506 3
  | 508 => internal 254 2 507
  | 509 => internal 255 508 1
  | 510 => internal 0 0 509
  | i => leaf 1 (BitVec.ofNat 9 (2 * i)) 9

def t1Nodes : List Node :=
  (List.range 511).map t1Node

/-- A state with that tree and a payload. -/
def t1State (bs : List Byte) : State :=
  { loaded bs with built := true, nodeCount := 511, nodes := { contents := some t1Nodes, fill := 0 } }

/-- A state whose tree is the one BUILD makes of its table, with a payload. -/
def builtState (bs : List Byte) : State :=
  { loaded bs with built := true, nodeCount := 511,
                   nodes := { contents := some (buildNodes State.reset.freq), fill := 0 } }

/-! ### BUILD: table T3, whose first merges are worked out in 40_build_tree.md R130 (the tie case), and the walk of R146 -/

def t3 : Vector Word 256 :=
  Vector.ofFn fun i => if i.val < 4 then [5, 3, 3, 2].getD i.val 0 else BitVec.ofNat 32 (100 + i.val)

theorem test_build_T3_first_three_merges :
    ([256, 257, 258].map fun k => let n := nodeAt (mergeRounds (initNodes t3) 3) k
      (n.rightChild.toNat, n.leftChild.toNat, n.frequency.toNat)) = [(2, 3, 5), (0, 1, 8), (257, 256, 13)] := by
  decide +kernel

/-- R130's third merge: the opening pair is (4, 5), and the final slots are 257 and 256, in that order. -/
theorem test_selectPair_T3_third :
    selectPair (mergeRounds (initNodes t3) 2) 258 = some (257, 256) ∧
      scanPair (mergeRounds (initNodes t3) 2) 258 = (257, 256) := by
  decide +kernel

theorem test_deriveCode_T1 :
    [0, 1, 2, 7].map (deriveCode t1Nodes) = [(3, 2), (1, 3), (13, 4), (14, 9)] := by
  decide +kernel

/-! ### The bit codec: V-W1, V-W3, V-R1, V-R2 -/

theorem test_putBits_V_W1 :
    putBits (putBits (putBits (putBits [0x00] 8 13 4) 12 510 9) 21 3 2) 23 1 3 = [0x00, 0xED, 0xFF, 0x00] := by
  decide
theorem test_putBits_low_bits_only : putBits [0x00] 8 0x1FF 4 = [0x00, 0x0F] := by decide
theorem test_getBit_V_R1 :
    [8, 13, 15, 16, 18, 27].map (getBit [0x84, 0x9F, 0xFB, 0x03]) = [true, false, true, true, false, false] := by
  decide
theorem test_getByte8_V_R2 : getByte8 [0x87, 0xFE, 0x01] 9 = 0xFF ∧ getByte8 [0x00, 0xED, 0x1F] 13 = 0xFF := by decide

/-! ### COMPRESS and DECOMPRESS on table T1: V-K1, V-K6, V-K7, V-K9; V-D1, V-D12, V-D13, V-D15 -/

theorem test_compress_V_K1 : compressedBuffer t1Node [0, 0, 1, 0, 2, 0, 0, 1] = [0x84, 0x9F, 0xFB, 0x03] := by
  decide +kernel
theorem test_compress_V_K9 :
    compressedBuffer t1Node [0, 0, 0, 7, 0, 0, 0, 0xFF, 0, 0, 0, 0] = [0x82, 0xBF, 0x83, 0xDF, 0xFF, 0x3F] := by
  decide +kernel
theorem test_decode_V_D1 : decodeStream t1Node [0x84, 0x9F, 0xFB, 0x03] 20 = .ok [0, 0, 1, 0, 2, 0, 0, 1] := by
  decide +kernel
theorem test_decode_V_D12 : decodeStream t1Node [0x83, 0x9F, 0xFB, 0x03] 21 = .error .escapeOverrun := by decide +kernel
theorem test_decode_V_D13 : decodeStream t1Node [0x85, 0x9F, 0xFB, 0x03] 19 = .error .treeWalkOverrun := by
  decide +kernel
theorem test_decode_V_D15 : decodeStream t1Node [0x87, 0x55, 0x00] 9 = .ok [7] := by decide +kernel

/-- V-K6 and V-S9: the smallest compressible payload, as a command. -/
theorem test_exec_compress_V_K6 :
    (next? (exec .compress (t1State [0, 0, 0]))).map
      (fun t => (t.outputBytes, t.outLen, t.bitLen, t.errcode, t.statusWord)) =
      some ([0x82, 0x3F], 2, 6, 0, 0x1) := by
  decide +kernel

/-- V-K4: equality passes through. -/
theorem test_exec_compress_V_K4 :
    (next? (exec .compress (t1State [0, 0]))).map
      (fun t => (t.outputBytes, t.outLen, t.bitLen, t.errcode, t.statusWord)) =
      some ([0, 0], 2, 4, 0, 0x9) := by
  decide +kernel

/-- V-D19: one symbol, as a command. -/
theorem test_exec_decompress_V_D19 :
    (next? (exec .decompress (t1State [0x86, 0x03]))).map
      (fun t => (t.outputBytes, t.outLen, t.bitLen, t.errcode, t.statusWord)) =
      some ([0x00], 1, 2, 0, 0x1) := by
  decide +kernel

/-- V-D7: the padding exceeds the available bits. -/
theorem test_exec_decompress_V_D7 :
    (next? (exec .decompress (t1State [0x8F, 0xFF]))).map (fun t => (t.outLen, t.errcode, t.statusWord)) =
      some (0, 0x0202, 0x5) := by
  decide +kernel

/-- P3 steps 1 and 2: COMPRESS before BUILD, then an illegal word. -/
theorem test_P3_not_built :
    (next? (exec .compress State.reset)).map (fun t => (t.errcode, t.statusWord)) = some (0x0103, 0x4) := by decide
theorem test_P3_illegal :
    (next? (step (State.reset.withFetchWord 32 4))).map (fun t => (t.cmd, t.errcode, t.statusWord)) =
      some (4, 0x0104, 0x4) := by decide

/-- V-S7: a second BUILD. -/
theorem test_exec_build_V_S7 :
    (next? (exec .build (t1State []))).map (fun t => (t.errcode, t.statusWord, t.nodeCount)) =
      some (0x0203, 0x5, 511) := by decide

/-- V-S6: BUILD from reset. -/
theorem test_exec_build_V_S6 :
    (next? (exec .build State.reset)).map (fun t => (t.errcode, t.statusWord, t.nodeCount)) = some (0, 0x1, 511) := by
  decide

/-- V-S2: NOP after an error. -/
theorem test_exec_nop_V_S2 :
    (next? (exec .nop { t1State [] with errcode := 0x0302 })).map (fun t => (t.errcode, t.statusWord)) =
      some (0, 0x1) := by decide

/-! ### The port: V-M3, V-M8, V-M9, V-B1's word packing -/

theorem test_port_V_M3 :
    (next? (step { State.reset with pending := [.memWrite 0x0000C#20 4 0x12345678] })).map (·.inLen) = some 0x5678 := by
  decide
theorem test_port_V_M9 :
    (next? (step { State.reset with pending := [.memWrite 0x10005#20 1 0xAB] })).map (·.ibufByte 5) = some 0xAB := by
  decide
theorem test_port_V_M8_unmapped :
    step { State.reset with pending := [.memRead 0x80000#20 4] } = .fault .unmappedAddress := rfl
theorem test_port_V_M8_misaligned : step { State.reset with pending := [.memRead 0x00002#20 4] } = .refused .misaligned := rfl
theorem test_port_V_M8_width : step { State.reset with pending := [.memRead 0x10000#20 4] } = .refused .accessWidth := rfl
theorem test_node_words_V_B1 :
    let n : Node := { leftChild := 511, rightChild := 511, parentOffset := 128, frequency := 0, codeBits := 510, codeLength := 9 }
    [Node.word n 0, Node.word n 1] = [0x01FF01FF, 0x01FE0980] := by decide

/-! ### Witnesses: for each statement with hypotheses, a concrete state and operands that meet all of them together -/

/-- The reset state with one host step pending. -/
def waiting (e : HostStep) : State := { State.reset with pending := [e] }

theorem witness_StepRunsWrittenCommand :
    (waiting (.memWrite 0 4 2)).busy = false ∧ (waiting (.memWrite 0 4 2)).pending = .memWrite 0x00000#20 4 2 :: [] ∧
      decode 2 = .ok .compress := by decide

theorem witness_IllegalWordRaises_first :
    (waiting (.memWrite 0 4 4)).busy = false ∧ (waiting (.memWrite 0 4 4)).pending = .memWrite 0x00000#20 4 4 :: [] ∧
      4 ≤ (4 : Word).toNat := by decide
theorem witness_IllegalWordRaises_last : 4 ≤ (0xFFFFFFFF : Word).toNat := by decide

theorem witness_IdleKeepsState : State.reset.pending = [] := rfl

theorem witness_ResetPinClears : (waiting .rst).pending = .rst :: [] := rfl

/-- A built state meets the invariant. -/
theorem builtState_inv (b : Byte) (todo : List HostStep) : State.Inv { builtState [b] with pending := todo } where
  notBusy := rfl
  errcodeKnown := by simp [builtState, loaded, State.reset, errcodeValues]
  errorHasNoResult := fun h => absurd rfl h
  unbuiltHasNoResult := fun h => by cases h
  tree := rfl
  count := rfl
  ibufWf := rfl
  obufWf := rfl
  resultWritten := fun j h => by simp [builtState, loaded, State.reset] at h

theorem witness_StepKeepsInvariant :
    State.Inv { builtState [0] with pending := [.memWrite 0 4 0] } ∧
      ∃ t, step { builtState [0] with pending := [.memWrite 0 4 0] } = .next t :=
  ⟨builtState_inv 0 _, _, rfl⟩

theorem witness_StepKeepsFreq : ∃ t, step (waiting (.memWrite 0 4 1)) = .next t := ⟨_, rfl⟩

theorem witness_NodesChangeOnlyByBuildOrReset :
    ∃ t, step (waiting (.memWrite 0 4 1)) = .next t ∧ t.nodes ≠ (waiting (.memWrite 0 4 1)).nodes :=
  ⟨_, rfl, fun h => by cases congrArg NodeMemory.contents h⟩

theorem witness_BuiltStaysUntilReset :
    (∃ t, step { builtState [0] with pending := [.memWrite 0 4 1] } = .next t) ∧
      ({ builtState [0] with pending := [.memWrite 0 4 1] } : State).built = true ∧
      ∀ rest, ({ builtState [0] with pending := [.memWrite 0 4 1] } : State).pending ≠ .rst :: rest :=
  ⟨⟨_, rfl⟩, rfl, fun _ h => by cases h⟩

theorem witness_CommandFrame : (∃ t, exec .nop (loaded [0]) = .next t) ∧ (∃ t, exec .build (loaded [0]) = .next t) ∧
    (∃ t, exec .compress (loaded [0]) = .next t) ∧ ∃ t, exec .decompress (loaded [0]) = .next t :=
  ⟨⟨_, rfl⟩, ⟨_, rfl⟩, ⟨_, rfl⟩, ⟨_, rfl⟩⟩

theorem witness_OldResultsDoNotMatter : ∃ t, exec .build (loaded [0]) = .next t := ⟨_, rfl⟩

/-- Two states that differ in `IBUF` beyond `IN_LEN` only. -/
theorem witness_OnlyTheInputMatters :
    let s := loaded [0x00]
    let u : State := { s with ibuf := s.ibuf.write 9 0xAB }
    u.ibuf ≠ s.ibuf ∧ u.built = s.built ∧ u.freq = s.freq ∧ u.nodes = s.nodes ∧ u.inputBytes = s.inputBytes ∧
      ∃ t, exec .compress s = .next t := by
  intro s u
  exact ⟨by decide, rfl, rfl, rfl, rfl, _, rfl⟩

theorem witness_WrongSequenceRaises : (t1State []).built = true ∧ State.reset.built = false := by decide

theorem witness_BuildWritesTheTree : State.reset.built = false := rfl

theorem witness_ReplaceableSlotRule :
    (∃ a b c : Slot, b.frequency < a.frequency ∧ c.frequency < a.frequency) ∧
      (∃ a b c : Slot, b.frequency < a.frequency ∧ a.frequency ≤ c.frequency) ∧
      (∃ a b c : Slot, a.frequency = b.frequency ∧ a.frequency ≤ b.frequency ∧ c.frequency < b.frequency) ∧
      ∃ a b c : Slot, a.frequency ≤ b.frequency ∧ b.frequency ≤ c.frequency :=
  ⟨⟨⟨0, 5⟩, ⟨1, 3⟩, ⟨2, 3⟩, by decide⟩, ⟨⟨0, 5⟩, ⟨1, 3⟩, ⟨2, 5⟩, by decide⟩, ⟨⟨2, 3⟩, ⟨1, 3⟩, ⟨3, 2⟩, by decide⟩,
    ⟨⟨0, 3⟩, ⟨1, 3⟩, ⟨2, 3⟩, by decide⟩⟩

theorem witness_SelectPairTakesTwoSmallest :
    2 ≤ [initLeaf 5, initLeaf 3].length ∧ 0 < 1 ∧ 1 < 2 ∧ (nodeAt [initLeaf 5, initLeaf 3] 0).parentOffset = 0#8 ∧
      (nodeAt [initLeaf 5, initLeaf 3] 1).parentOffset = 0#8 := by
  decide

/-- An attached node stands between the two, and a third unattached node is a candidate. -/
theorem witness_SelectPairRunsTheScans :
    let N := [initLeaf 5, { initLeaf 4 with parentOffset := 1#8 }, initLeaf 3, initLeaf 3]
    4 ≤ N.length ∧ 0 < 2 ∧ 2 < 4 ∧ (nodeAt N 0).parentOffset = 0#8 ∧ (nodeAt N 2).parentOffset = 0#8 := by
  decide

/-- The first and the last round. -/
theorem witness_BuildMergesTheSelectedPairs : (0 < 255 ∧ 256 = 256 + 0) ∧ 254 < 255 ∧ 510 = 256 + 254 := by decide

/-- The last merge (`k = 510`) and the first (`k = 256`). -/
theorem witness_MergeJoinsThePair :
    t1Nodes.length = 511 ∧ (256 ≤ 510 ∧ 510 ≤ 510 ∧ 0 < 510 ∧ 509 < 510 ∧ 0 ≠ 509) ∧
      256 ≤ 256 ∧ 256 ≤ 510 ∧ 0 < 256 ∧ 1 < 256 ∧ 0 ≠ 1 := by
  simp [t1Nodes]

theorem witness_CodesArePrefixFree : (0 : Byte) ≠ 1 := by decide

theorem witness_RebuildAfterResetIsSame : (builtState [0]).Inv ∧ (builtState [0]).built = true :=
  ⟨builtState_inv 0 [], rfl⟩

theorem witness_PutBitsReadsBack : ∀ q, 8 ≤ q → getBit [0x00] q = false := by
  intro q h
  rw [getBit, List.getD_eq_default _ _ (by simp only [List.length_cons, List.length_nil]; omega)]
  simp

theorem witness_CompressRefusesHighFirstByte :
    (t1State [0x80]).built = true ∧ 0 < (t1State [0x80]).inLen.toNat ∧ 0x80 ≤ ((t1State [0x80]).ibufByte 0).toNat ∧
      ((t1State [0x7F]).ibufByte 0).toNat < 0x80 ∧ (t1State []).inLen.toNat = 0 := by decide

theorem witness_CompressPassesThrough :
    let s := t1State [2, 2, 2]
    s.built = true ∧ (s.inLen.toNat = 0 ∨ (s.ibufByte 0).toNat < 0x80) ∧
      s.inLen.toNat ≤ (totalBits s.node s.inputBytes + 7) / 8 + 1 := by decide +kernel

theorem witness_CompressPacksTheCodes :
    let s := t1State [0, 0, 0]
    s.built = true ∧ (s.inLen.toNat = 0 ∨ (s.ibufByte 0).toNat < 0x80) ∧
      (totalBits s.node s.inputBytes + 7) / 8 + 1 < s.inLen.toNat := by decide +kernel

/-- V-K6 is a successful COMPRESS on the compressed path. -/
theorem witness_CompressAccountsForEveryBit :
    ((next? (exec .compress (t1State [0, 0, 0]))).any fun t => t.errcode == 0#16 && t.pass == false) = true := by
  decide +kernel

/-- V-K6 again, and V-K4 on the pass-through path. -/
theorem witness_CompressNeverGrows :
    ((next? (exec .compress (t1State [0, 0, 0]))).any fun t => t.errcode == 0#16 && t.pass == false) = true ∧
      ((next? (exec .compress (t1State [0, 0]))).any fun t => t.errcode == 0#16 && t.pass) = true := by
  decide +kernel

theorem witness_ShortAndEscapedPassThrough :
    (builtState [0x7F]).Inv ∧ (builtState [0x7F]).built = true ∧ ((builtState [0x7F]).ibufByte 0).toNat < 0x80 ∧
      (builtState [0x7F]).inLen.toNat ≤ 2 :=
  ⟨builtState_inv 0x7F [], rfl, by decide, by decide⟩

theorem witness_DecompressRefusesEmpty : (t1State []).built = true ∧ (t1State []).inLen = 0#16 := by decide

theorem witness_DecompressPassesThrough :
    (t1State [0x7F]).built = true ∧ 0 < (t1State [0x7F]).inLen.toNat ∧
      ((t1State [0x7F]).ibufByte 0).getLsbD 7 = false ∧ (loaded [0x7F]).built = false ∧
      0 < (loaded [0x7F]).inLen.toNat ∧ ((loaded [0x7F]).ibufByte 0).getLsbD 7 = false := by decide

theorem witness_DecompressChecksPadding :
    ((t1State [0x81]).ibufByte 0).getLsbD 7 = true ∧
      8 * ((t1State [0x81]).inLen.toNat - 1) < ((t1State [0x81]).ibufByte 0).toNat % 16 ∧
      ((t1State [0x88, 0xFF]).ibufByte 0).getLsbD 7 = true ∧
      ((t1State [0x88, 0xFF]).ibufByte 0).toNat % 16 ≤ 8 * ((t1State [0x88, 0xFF]).inLen.toNat - 1) := by decide

/-- V-D19: the stream `11` is one Huffman symbol, byte 0. -/
theorem witness_DecompressDecodesStream :
    (t1State [0x86, 0x03]).built = true ∧ (t1State [0x86, 0x03]).HoldsStream 2 ∧
      Parses (t1State [0x86, 0x03]).node (streamBits (t1State [0x86, 0x03]).inputBytes 2) [0x00] := by
  refine ⟨rfl, by unfold State.HoldsStream; decide, ?_⟩
  have hbits : streamBits (t1State [0x86, 0x03]).inputBytes 2 = true :: [true] ++ [] := by decide
  have hchild : childOf ((t1State [0x86, 0x03]).node 510) true = 0 := by decide +kernel
  have hleaf : isLeaf ((t1State [0x86, 0x03]).node (childOf ((t1State [0x86, 0x03]).node 510) true)) = true := by
    decide +kernel
  have hd := Descends.last (node := (t1State [0x86, 0x03]).node) 510 true hleaf
  rw [hchild] at hd
  rw [hbits]
  exact Parses.huffman [true] 0 [] [] hd Parses.done

/-- V-D8: one prefix bit 1 and nothing after it. V-D9: one prefix bit 0 and nothing after it. -/
theorem witness_FirstStreamDefectReported :
    (t1State [0x8F, 0xFF, 0xFF]).HoldsStream 1 ∧
      streamBits (t1State [0x8F, 0xFF, 0xFF]).inputBytes 1 = [] ++ true :: [] ∧
      (∀ path m, path.IsPrefix [] → ¬ Descends (t1State [0x8F, 0xFF, 0xFF]).node 510 path m) ∧
      (t1State [0x87, 0x00]).HoldsStream 1 ∧ streamBits (t1State [0x87, 0x00]).inputBytes 1 = [] ++ false :: [] ∧
      Parses (t1State [0x87, 0x00]).node [] [] := by
  refine ⟨by unfold State.HoldsStream; decide, by decide, ?_, by unfold State.HoldsStream; decide, by decide, .done⟩
  intro path m hp hd
  rw [List.prefix_nil.mp hp] at hd
  cases hd

/-- V-D19: a successful DECOMPRESS on the compressed path, at the bound (one byte from two bits). -/
theorem witness_DecompressOutputBound :
    ((next? (exec .decompress (t1State [0x86, 0x03]))).any fun t =>
      t.errcode == 0#16 && t.pass == false && t.outLen == 1 && t.bitLen == 2) = true := by
  decide +kernel

/-- A built state, a payload, and a successful COMPRESS of it (pass-through: one byte never shrinks). -/
theorem witness_DecompressInvertsCompress :
    (builtState [0]).Inv ∧ (builtState [0]).built = true ∧ 0 < (builtState [0]).inLen.toNat ∧
      ∃ t, exec .compress (builtState [0]) = .next t ∧ t.errcode = 0#16 ∧
        (builtState [0]).inputBytes = t.outputBytes := by
  refine ⟨builtState_inv 0 [], rfl, by decide, (builtState [0]).beginCommand.deliver [0]
    (totalBits (builtState [0]).beginCommand.node [0]) true, ?_, rfl, rfl⟩
  have hle : encodedBytes (builtState [0]).beginCommand.node [0] ≥ 1 := by unfold encodedBytes; omega
  have hin : (builtState [0]).beginCommand.inputBytes = [0] := rfl
  show execCompress (builtState [0]) = _
  unfold execCompress
  simp only [hin]
  rw [if_neg (by decide), if_neg (by decide)]
  exact if_pos hle

theorem witness_ScriptRoundTrip :
    (builtState [0]).Inv ∧ (builtState [0]).built = true ∧ (0x7F : Byte).toNat < 0x80 ∧ ([] : List Byte).length < 65535 :=
  ⟨builtState_inv 0 [], rfl, by decide, by decide⟩

theorem witness_PortReadsRegisters :
    (waiting (.memRead 0x1C 4)).busy = false ∧ (waiting (.memRead 0x1C 4)).pending = .memRead 0x1C 4 :: [] ∧
      [0x1C#20, 0x3FC#20].Forall fun a => 0x1C ≤ a.toNat ∧ a.toNat < 0x400 ∧ a.toNat % 4 = 0 :=
  ⟨rfl, rfl, by simp⟩

/-- A read of each register, and of the first and the last reserved word, is a pending step the statement is about. -/
theorem witness_PortReadsRegisters_each :
    [0x00#20, 0x04#20, 0x08#20, 0x0C#20, 0x10#20, 0x14#20, 0x18#20, 0x1C#20, 0x3FC#20].Forall fun a =>
      (waiting (.memRead a 4)).busy = false ∧ (waiting (.memRead a 4)).pending = .memRead a 4 :: [] := by
  simp [waiting, State.reset]

theorem witness_InLenKeepsLowBits :
    (waiting (.memWrite 0x0C 4 0x12345678)).busy = false ∧
      (waiting (.memWrite 0x0C 4 0x12345678)).pending = .memWrite 0x0C#20 4 0x12345678 :: [] := by decide

theorem witness_ReadOnlyPlacesIgnoreWrites :
    (waiting (.memWrite 0x7FC 4 1)).pending = .memWrite 0x7FC 4 1 :: [] ∧
      ([0x04#20, 0x10#20, 0x3FC#20, 0x400#20, 0x7FC#20, 0x2000#20, 0x3FEC#20].Forall fun a =>
        a.toNat % 4 = 0 ∧ a ≠ 0x00#20 ∧ a ≠ 0x0C#20 ∧ (a.toNat < 0x800 ∨ (0x2000 ≤ a.toNat ∧ a.toNat < 0x3FF0))) ∧
      [0x40000#20, 0x7FFFF#20].Forall fun a => 0x40000 ≤ a.toNat ∧ a.toNat < 0x80000 :=
  ⟨rfl, by simp, by simp⟩

theorem witness_FreqWindowShowsTable :
    (waiting (.memRead 0x7FC 4)).pending = .memRead (BitVec.ofNat 20 (0x00400 + 4 * 255)) 4 :: [] ∧
      (waiting (.memWrite 0x400 4 1)).pending = .memWrite (BitVec.ofNat 20 (0x00400 + 4 * 0)) 4 1 :: [] := by decide

theorem witness_NodeWindowShowsNodes :
    (waiting (.memRead 0x3FEC 4)).pending = .memRead (BitVec.ofNat 20 (0x02000 + 16 * 510 + 4 * 3)) 4 :: [] ∧
      (waiting (.memWrite 0x2000 4 0)).pending = .memWrite (BitVec.ofNat 20 (0x02000 + 16 * 0 + 4 * 0)) 4 0 :: [] ∧
      State.reset.nodes.contents = none := by decide

theorem witness_BufferWindows :
    (waiting (.memWrite 0x1FFFF 1 7)).pending = .memWrite (BitVec.ofNat 20 (0x10000 + 65535)) 1 7 :: [] ∧
      (waiting (.memRead 0x10000 1)).pending = .memRead (BitVec.ofNat 20 (0x10000 + 0)) 1 :: [] ∧
      (waiting (.memRead 0x7FFFF 1)).pending = .memRead (BitVec.ofNat 20 (0x40000 + 262143)) 1 :: [] ∧
      (waiting (.memWrite 0x40000 1 7)).pending = .memWrite (BitVec.ofNat 20 (0x40000 + 0)) 1 7 :: [] := by decide

theorem witness_PortTakesExactlyDefinedAccesses :
    (waiting (.memRead 0x00800 4)).busy = false ∧
      [0x00800#20, 0x01FFF#20, 0x03FF0#20, 0x0FFFF#20, 0x20000#20, 0x3FFFF#20, 0x80000#20, 0xFFFFF#20].Forall fun a =>
        (0x00800 ≤ a.toNat ∧ a.toNat ≤ 0x01FFF) ∨ (0x03FF0 ≤ a.toNat ∧ a.toNat ≤ 0x0FFFF) ∨
          (0x20000 ≤ a.toNat ∧ a.toNat ≤ 0x3FFFF) ∨ 0x80000 ≤ a.toNat :=
  ⟨rfl, by simp⟩

theorem witness_LoadFillsTheInput :
    let s : State := { State.reset with pending := scriptLoad [1, 2] ++ [] }
    s.busy = false ∧ [1, 2].length < 65536 ∧ s.pending = scriptLoad [1, 2] ++ [] := by decide

theorem witness_PacketIsTagIdResult :
    ((next? (exec .compress (t1State [0, 0, 0]))).any fun t => t.errcode == 0#16) = true ∧
      ((next? (exec .compress State.reset)).any fun t => t.errcode != 0#16) = true := by
  decide +kernel

end Sys2Proof.Tests
end

section
/-! PROOF. The invariant between host steps: reset meets it, and every command and every host step keeps it. -/

namespace Sys2Proof.Machine

/-! ### The cells a host write to `IBUF` can reach -/

/-- Every `IBUF` cell the port reaches exists, `20_memory.md` R65. -/
theorem ibufCell_lt_of_locate {addr : Addr} {n j : Nat} (h : locate addr n = .ok (.ibufCell j)) : j < 65536 := by
  obtain ⟨_, _, ⟨_, hp⟩ | ⟨_, _, hp⟩ | ⟨_, _, hp⟩⟩ | ⟨_, ⟨_, _, hp⟩ | ⟨_, _, hp⟩⟩ := locate_ok_cases h <;>
    injection hp
  omega

/-! ### The ends of a command -/

/-- The codes of `60_exceptions.md` R201 are the nonzero values `ERRCODE` can hold. -/
theorem CommandError.code_mem (e : CommandError) : e.code ∈ errcodeValues := by
  cases e <;> decide

namespace State.Inv

variable {s : State}

/-- With the result registers clear, the clauses about results hold whatever `OBUF` and `ERRCODE` are. -/
theorem of_no_result (hbusy : s.busy = false) (hcode : s.errcode ∈ errcodeValues)
    (hres : s.outLen = 0#18 ∧ s.bitLen = 0#20 ∧ s.pass = false)
    (htree : s.nodes.contents = if s.built then some (buildNodes s.freq) else none)
    (hcount : s.nodeCount = if s.built then 511#9 else 0#9) (hibuf : s.ibuf.wf 65536 = true)
    (hobuf : s.obuf.wf 262144 = true) : s.Inv where
  notBusy := hbusy
  errcodeKnown := hcode
  errorHasNoResult _ := hres
  unbuiltHasNoResult _ := hres
  tree := htree
  count := hcount
  ibufWf := hibuf
  obufWf := hobuf
  resultWritten j hj := by simp [hres.1] at hj

/-- NOP's result clear. -/
theorem endCommand (h : s.Inv) : s.beginCommand.endCommand.Inv :=
  of_no_result rfl List.mem_cons_self ⟨rfl, rfl, rfl⟩ h.tree h.count h.ibufWf h.obufWf

/-- An error, `60_exceptions.md` R204. -/
theorem raise (h : s.Inv) (e : CommandError) : (s.beginCommand.raise e).Inv :=
  of_no_result rfl e.code_mem ⟨rfl, rfl, rfl⟩ h.tree h.count h.ibufWf (Memory.wf_forget _ _)

/-- A successful BUILD, `40_build_tree.md` R128. -/
theorem deliverTree (h : s.Inv) : (s.beginCommand.deliverTree (buildNodes s.freq)).Inv :=
  of_no_result rfl List.mem_cons_self ⟨rfl, rfl, rfl⟩ rfl rfl h.ibufWf h.obufWf

/-- A result of a built core that fits `OUT_LEN`: its bytes are the cells of `OBUF` that get a value. -/
theorem deliver (h : s.Inv) (hb : s.built = true) {bs : List Byte} (hl : bs.length < 2 ^ 18) (n : Nat) (p : Bool) :
    (s.beginCommand.deliver bs n p).Inv where
  notBusy := rfl
  errcodeKnown := List.mem_cons_self
  errorHasNoResult he := absurd rfl he
  unbuiltHasNoResult hu := by rw [deliver_built, beginCommand_built, hb] at hu; cases hu
  tree := h.tree
  count := h.count
  ibufWf := h.ibufWf
  obufWf := Memory.wf_holdResult _ hl.le
  resultWritten j hj := by
    rw [deliver_outLen, BitVec.toNat_ofNat, Nat.mod_eq_of_lt hl] at hj
    simp [hj]

/-- Every command keeps the invariant. -/
theorem exec {i : Instr} {t : State} (h : s.Inv) (he : exec i s = .next t) : t.Inv := by
  obtain ⟨_, rfl⟩ | ⟨e, rfl⟩ | ⟨_, _, rfl⟩ | ⟨bs, n, p, _, hb, hl, _, rfl⟩ := exec_cases he
  · exact h.endCommand
  · exact h.raise e
  · exact h.deliverTree
  · exact h.deliver hb hl n p

/-- So does the write of any word to `CMD`. -/
theorem writeCmd {w : Word} {t : State} (h : s.Inv) (hw : writeCmd w s = .next t) : t.Inv := by
  have hc : State.Inv { s with cmd := w } := { h with }
  obtain ⟨i, _, he⟩ | ⟨_, rfl⟩ := writeCmd_cases hw
  · exact hc.exec he
  · exact hc.raise .reservedOpcode

/-- Reset at any time, from any state, `70_reset_and_hazards.md` R230. -/
theorem applyReset (s : State) : s.applyReset.Inv :=
  of_no_result rfl List.mem_cons_self ⟨rfl, rfl, rfl⟩ rfl rfl (Memory.wf_forget _ _) (Memory.wf_forget _ _)

end State.Inv

/-- Settles O10: every register is 0 and neither buffer lists a cell. -/
theorem resetMeetsInvariant : Obligations.ResetMeetsInvariant :=
  State.Inv.of_no_result rfl List.mem_cons_self ⟨rfl, rfl, rfl⟩ rfl rfl reset_ibuf_wf reset_obuf_wf

/-- Settles O11, by the cases of a step: only a write to `CMD` and one to `IBUF` touch what the invariant speaks of. -/
theorem stepKeepsInvariant : Obligations.StepKeepsInvariant := by
  unfold Obligations.StepKeepsInvariant
  intro s t h hstep
  obtain ⟨_, rfl⟩ | ⟨e, rest, _, ⟨_, rfl⟩ | ⟨_, hacc⟩⟩ := step_cases hstep
  · exact h
  · exact State.Inv.applyReset _
  have htaken : State.Inv { s with pending := rest } := { h with }
  obtain ⟨_, _, _, _, _, rfl⟩ | ⟨addr, n, v, _, hwrite⟩ := hacc
  · exact { h with }
  obtain ⟨_, hcmd⟩ | ⟨_, rfl⟩ | ⟨j, hloc, rfl⟩ | ⟨_, rfl⟩ := hwrite
  · exact htaken.writeCmd hcmd
  · exact { h with }
  · exact { h with ibufWf := Memory.wf_write h.ibufWf (ibufCell_lt_of_locate hloc) _ }
  · exact htaken

end Sys2Proof.Machine
end

section
/-! PROOF. What a step can change of the table, of `N` and of what belongs to it: `FREQ` never, `N`, `BUILT` and `NODE_COUNT`
only by a reset or by a BUILD with `BUILT = 0`. -/

namespace Sys2Proof.Machine

/-! ### Commands -/

theorem exec_freq {i : Instr} {s t : State} (h : exec i s = .next t) : t.freq = s.freq := by
  obtain ⟨_, rfl⟩ | ⟨e, rfl⟩ | ⟨_, _, rfl⟩ | ⟨bs, n, p, _, _, _, _, rfl⟩ := exec_cases h <;> rfl

theorem writeCmd_freq {w : Word} {s t : State} (h : writeCmd w s = .next t) : t.freq = s.freq := by
  obtain ⟨i, _, he⟩ | ⟨_, rfl⟩ := writeCmd_cases h
  · exact (exec_freq he :)
  · rfl

/-- `t` has the node array of `s` and the same registers about it. -/
def State.SameTree (t s : State) : Prop :=
  t.built = s.built ∧ t.nodes = s.nodes ∧ t.nodeCount = s.nodeCount

/-- A command leaves the tree, or it is a BUILD that wrote it. -/
theorem exec_tree {i : Instr} {s t : State} (h : exec i s = .next t) :
    t.SameTree s ∨
      (i = .build ∧ s.built = false ∧ t.built = true ∧ t.nodes.contents = some (buildNodes s.freq)) := by
  obtain ⟨_, rfl⟩ | ⟨e, rfl⟩ | ⟨hi, hb, rfl⟩ | ⟨bs, n, p, _, _, _, _, rfl⟩ := exec_cases h
  · exact .inl ⟨rfl, rfl, rfl⟩
  · exact .inl ⟨rfl, rfl, rfl⟩
  · exact .inr ⟨hi, hb, rfl, rfl⟩
  · exact .inl ⟨rfl, rfl, rfl⟩

/-- BUILD has one command word, `30_encoding.md` R99. -/
theorem eq_one_of_decode_build {w : Word} (h : decode w = .ok .build) : w = 1#32 := by
  rw [decode_eq] at h
  split at h
  · cases h
  split at h
  · assumption
  split at h
  · cases h
  split at h <;> cases h

theorem writeCmd_tree {w : Word} {s t : State} (h : writeCmd w s = .next t) :
    t.SameTree s ∨
      (w = 1#32 ∧ s.built = false ∧ t.built = true ∧ t.nodes.contents = some (buildNodes s.freq)) := by
  obtain ⟨i, hi, he⟩ | ⟨_, rfl⟩ := writeCmd_cases h
  · obtain hsame | ⟨rfl, hbuild⟩ := exec_tree he
    · exact .inl hsame
    · exact .inr ⟨eq_one_of_decode_build hi, hbuild⟩
  · exact .inl ⟨rfl, rfl, rfl⟩

/-! ### Steps -/

/-- `CMD` stands at offset 0 alone and takes 32-bit accesses, `10_state.md` R34, `20_memory.md` R70. -/
theorem locate_eq_cmd {addr : Addr} {n : Nat} (h : locate addr n = .ok (.register 0)) : addr = 0#20 ∧ n = 4 := by
  obtain ⟨hn, ha, ⟨_, hp⟩ | ⟨_, _, hp⟩ | ⟨_, _, hp⟩⟩ | ⟨_, ⟨_, _, hp⟩ | ⟨_, _, hp⟩⟩ := locate_ok_cases h <;>
    injection hp
  exact ⟨BitVec.eq_of_toNat_eq (by rw [BitVec.toNat_ofNat]; omega), hn⟩

/-- A step leaves the tree, or it is a reset, or it writes BUILD's word to `CMD` with `BUILT = 0`. -/
theorem step_tree {s t : State} (h : step s = .next t) :
    t.SameTree s ∨
      ∃ rest, s.pending = .rst :: rest ∨
        (s.built = false ∧ s.pending = .memWrite 0x00000#20 4 0x00000001#32 :: rest ∧ t.built = true ∧
          t.nodes.contents = some (buildNodes s.freq)) := by
  obtain ⟨_, rfl⟩ | ⟨e, rest, hp, ⟨rfl, _⟩ | ⟨_, hacc⟩⟩ := step_cases h
  · exact .inl ⟨rfl, rfl, rfl⟩
  · exact .inr ⟨rest, .inl hp⟩
  obtain ⟨_, _, _, _, _, rfl⟩ | ⟨addr, n, v, rfl, hwrite⟩ := hacc
  · exact .inl ⟨rfl, rfl, rfl⟩
  obtain ⟨hloc, hcmd⟩ | ⟨_, rfl⟩ | ⟨j, _, rfl⟩ | ⟨_, rfl⟩ := hwrite
  · obtain ⟨rfl, rfl⟩ := locate_eq_cmd hloc
    obtain hsame | ⟨rfl, hb, ht, hc⟩ := writeCmd_tree hcmd
    · exact .inl hsame
    · exact .inr ⟨rest, .inr ⟨hb, hp, ht, hc⟩⟩
  · exact .inl ⟨rfl, rfl, rfl⟩
  · exact .inl ⟨rfl, rfl, rfl⟩
  · exact .inl ⟨rfl, rfl, rfl⟩

/-- Settles O12: of all steps only a command's could touch the table, and no command does. -/
theorem stepKeepsFreq : Obligations.StepKeepsFreq := by
  unfold Obligations.StepKeepsFreq
  intro s t h
  obtain ⟨_, rfl⟩ | ⟨e, rest, _, ⟨_, rfl⟩ | ⟨_, hacc⟩⟩ := step_cases h
  · rfl
  · rfl
  obtain ⟨_, _, _, _, _, rfl⟩ | ⟨addr, n, v, _, hwrite⟩ := hacc
  · rfl
  obtain ⟨_, hcmd⟩ | ⟨_, rfl⟩ | ⟨j, _, rfl⟩ | ⟨_, rfl⟩ := hwrite
  · exact (writeCmd_freq hcmd :)
  · rfl
  · rfl
  · rfl

/-- Settles O13: `step_tree` without the case that leaves `N`. -/
theorem nodesChangeOnlyByBuildOrReset : Obligations.NodesChangeOnlyByBuildOrReset := by
  unfold Obligations.NodesChangeOnlyByBuildOrReset
  intro s t h hne
  exact (step_tree h).resolve_left fun ⟨_, hnodes, _⟩ => hne hnodes

/-- Settles O14: with `BUILT` 1 and no reset, `step_tree` leaves the tree as it is. -/
theorem builtStaysUntilReset : Obligations.BuiltStaysUntilReset := by
  unfold Obligations.BuiltStaysUntilReset
  intro s t h hb hrst
  obtain ⟨hbuilt, hnodes, hcount⟩ | ⟨rest, hp | ⟨hunbuilt, _⟩⟩ := step_tree h
  · exact ⟨hbuilt.trans hb, hnodes, hcount⟩
  · exact absurd hp (hrst rest)
  · rw [hb] at hunbuilt; cases hunbuilt

end Sys2Proof.Machine
end

section
/-! PROOF. What a command works on, `10_state.md` R44: `BUILT`, `FREQ`, `N` and the input bytes decide which of four effects it has;
what an earlier command left, and `IBUF` beyond `IN_LEN`, do not come in. -/

namespace Sys2Proof.Machine

/-- How a command ends: the result clear alone, an error, a tree, or a result. -/
inductive Effect where
  | clear
  | error (e : CommandError)
  | tree (ns : List Node)
  | result (bytes : List Byte) (bits : Nat) (pass : Bool)

/-- The end of a command after its result clear. -/
def Effect.apply : Effect → State → State
  | .clear, s => s.endCommand
  | .error e, s => s.raise e
  | .tree ns, s => s.deliverTree ns
  | .result bytes bits pass, s => s.deliver bytes bits pass

/-- `u` holds the same operands of a command as `s`. -/
structure State.SameOperands (u s : State) : Prop where
  built : u.built = s.built
  freq : u.freq = s.freq
  nodes : u.nodes = s.nodes
  input : u.inputBytes = s.inputBytes

theorem State.SameOperands.rfl {s : State} : s.SameOperands s :=
  ⟨Eq.refl _, Eq.refl _, Eq.refl _, Eq.refl _⟩

theorem State.SameOperands.node {u s : State} (h : u.SameOperands s) : u.node = s.node :=
  State.node_congr h.nodes

/-! ### The operands decide the effect -/

theorem execBuild_effect (s : State) :
    ∃ x : Effect, ∀ u : State, u.SameOperands s → execBuild u = .next (x.apply u.beginCommand) := by
  cases hb : s.built with
  | true => exact ⟨.error .alreadyBuilt, fun u h => by simp [execBuild, h.built, hb, Effect.apply]⟩
  | false => exact ⟨.tree (buildNodes s.freq), fun u h => by simp [execBuild, h.built, h.freq, hb, Effect.apply]⟩

theorem execCompress_effect (s : State) :
    ∃ x : Effect, ∀ u : State, u.SameOperands s → execCompress u = .next (x.apply u.beginCommand) := by
  cases hb : s.built with
  | false => exact ⟨.error .notBuilt, fun u h => by simp [execCompress, h.built, hb, Effect.apply]⟩
  | true =>
    cases hf : firstByteHigh s.inputBytes with
    | true =>
      exact ⟨.error .firstByteHighBit, fun u h => by simp [execCompress, h.built, h.input, hb, hf, Effect.apply]⟩
    | false =>
      by_cases hl : s.inLen.toNat ≤ encodedBytes s.node s.inputBytes
      · exact ⟨.result s.inputBytes (totalBits s.node s.inputBytes) true, fun u h => by
          simp [execCompress, h.built, h.input, h.node, hb, hf, hl, Effect.apply]⟩
      · exact ⟨.result (compressedBuffer s.node s.inputBytes) (totalBits s.node s.inputBytes) false, fun u h => by
          simp [execCompress, h.built, h.input, h.node, hb, hf, hl, Effect.apply]⟩

theorem execDecompress_effect (s : State) :
    ∃ x : Effect, ∀ u : State, u.SameOperands s → execDecompress u = .next (x.apply u.beginCommand) := by
  cases hb : s.built with
  | false => exact ⟨.error .notBuilt, fun u h => by simp [execDecompress, h.built, hb, Effect.apply]⟩
  | true =>
    cases hi : s.inputBytes with
    | nil => exact ⟨.error .emptyInput, fun u h => by simp [execDecompress, h.built, h.input, hb, hi, Effect.apply]⟩
    | cons b rest =>
      cases hf : headerFlag b with
      | false =>
        exact ⟨.result (b :: rest) 0 true, fun u h => by
          simp [execDecompress, h.built, h.input, hb, hi, hf, Effect.apply]⟩
      | true =>
        by_cases hp : rest.length * 8 < headerPad b
        · exact ⟨.error .paddingExceedsBits, fun u h => by
            simp [execDecompress, h.built, h.input, hb, hi, hf, hp, Effect.apply]⟩
        · cases hd : decodeStream s.node (b :: rest) (bitLength (b :: rest) (headerPad b)) with
          | error e =>
            exact ⟨.error e, fun u h => by
              simp [execDecompress, h.built, h.input, h.node, hb, hi, hf, hp, hd, Effect.apply]⟩
          | ok out =>
            exact ⟨.result out (bitLength (b :: rest) (headerPad b)) false, fun u h => by
              simp [execDecompress, h.built, h.input, h.node, hb, hi, hf, hp, hd, Effect.apply]⟩

/-- The operands decide which effect a command has. -/
theorem exec_effect (i : Instr) (s : State) :
    ∃ x : Effect, ∀ u : State, u.SameOperands s → exec i u = .next (x.apply u.beginCommand) := by
  cases i with
  | nop => exact ⟨.clear, fun _ _ => rfl⟩
  | build => exact execBuild_effect s
  | compress => exact execCompress_effect s
  | decompress => exact execDecompress_effect s

/-- Two states with the same operands: a command has the same effect on both. -/
theorem exec_congr {i : Instr} {u s t : State} (h : u.SameOperands s) (hs : exec i s = .next t) :
    ∃ x : Effect, t = x.apply s.beginCommand ∧ exec i u = .next (x.apply u.beginCommand) := by
  obtain ⟨x, hx⟩ := exec_effect i s
  rw [hx s .rfl] at hs
  cases hs
  exact ⟨x, rfl, hx u h⟩

/-! ### The effect decides what is reported -/

/-- Every byte of a delivered result is one of the delivered bytes, whatever their number. -/
theorem State.outputBytes_deliver_eq_take (s : State) (bs : List Byte) (n : Nat) (p : Bool) :
    (s.deliver bs n p).outputBytes = bs.take (bs.length % 2 ^ 18) := by
  have hle : bs.length % 2 ^ 18 ≤ bs.length := Nat.mod_le _ _
  apply List.ext_getElem
  · simpa [State.outputBytes] using hle
  · intro j hj hj'
    have hlt : j < bs.length := by simp at hj'; omega
    simp [State.outputBytes, State.obufByte, hlt]

theorem State.outputBytes_of_outLen_zero {s : State} (h : s.outLen = 0#18) : s.outputBytes = [] := by
  simp [State.outputBytes, h]

theorem Effect.outputBytes_apply (x : Effect) (u s : State) :
    (x.apply u.beginCommand).outputBytes = (x.apply s.beginCommand).outputBytes := by
  cases x with
  | clear | error | tree => rw [State.outputBytes_of_outLen_zero rfl, State.outputBytes_of_outLen_zero rfl]
  | result bs n p => exact (State.outputBytes_deliver_eq_take ..).trans (State.outputBytes_deliver_eq_take ..).symm

/-- Settles O16: the leftovers are no operands, and the result clear overwrites all of them but `OBUF`. -/
theorem oldResultsDoNotMatter : Obligations.OldResultsDoNotMatter := by
  unfold Obligations.OldResultsDoNotMatter
  intro i s t e o b p m h
  have hsame : State.SameOperands { s with errcode := e, outLen := o, bitLen := b, pass := p, obuf := m } s :=
    ⟨rfl, rfl, rfl, State.inputBytes_congr rfl rfl⟩
  obtain ⟨x, rfl, hu⟩ := exec_congr hsame h
  refine ⟨_, hu, x.outputBytes_apply _ s, ?_⟩
  cases x <;> rfl

/-- Settles O17: the same operands, so the same effect, and an effect sets each of the reported registers or leaves an operand. -/
theorem onlyTheInputMatters : Obligations.OnlyTheInputMatters := by
  unfold Obligations.OnlyTheInputMatters
  intro i s u t hbuilt hfreq hnodes hinput h
  obtain ⟨x, rfl, hu⟩ := exec_congr ⟨hbuilt, hfreq, hnodes, hinput⟩ h
  have hout := x.outputBytes_apply u s
  refine ⟨_, hu, ?_⟩
  cases x with
  | clear | error | result => exact ⟨rfl, rfl, rfl, rfl, hbuilt, hnodes, hout⟩
  | tree ns => exact ⟨rfl, rfl, rfl, rfl, rfl, by simp [Effect.apply, hnodes], hout⟩

end Sys2Proof.Machine
end

section
/-! PROOF. The register page: what its words are, where the port finds them, and which writes it ignores. -/

namespace Sys2Proof.Machine

/-! ### Register words -/

/-- Words 7 to 255 of the register page are reserved, `10_state.md` R41. -/
theorem State.registerWord_reserved (s : State) {k : Nat} (h : 7 ≤ k) : s.registerWord k = 0#32 := by
  obtain ⟨j, rfl⟩ := Nat.exists_eq_add_of_le' h
  rfl

/-- The bytes of a word by shifts, `20_memory.md` R67. -/
theorem wordBytes_eq (w : Word) :
    wordBytes w = [w.setWidth 8, (w >>> 8).setWidth 8, (w >>> 16).setWidth 8, (w >>> 24).setWidth 8] := rfl

/-- `ERRCODE.KIND` is the low byte, `10_state.md` R36. -/
theorem State.err_eq_true_iff (s : State) : s.err = true ↔ s.errcode.toNat % 256 ≠ 0 := by
  simp [State.err, State.errKind, ← BitVec.toNat_inj]

/-- `STATUS` bit by bit, `10_state.md` R35. -/
theorem State.getLsbD_statusWord (s : State) (k : Nat) :
    s.statusWord.getLsbD k = [s.built, s.busy, s.err, s.pass].getD k false := by
  simp only [State.statusWord, BitVec.getLsbD_append]
  match k with
  | 0 | 1 | 2 | 3 | _ + 4 => simp

/-! ### Where the port finds a place -/

theorem locate_register {a : Addr} (h4 : a.toNat % 4 = 0) (h : a.toNat < 0x400) :
    locate a 4 = .ok (.register (a.toNat / 4)) := by
  simp [locate, wordPlace, h, h4]

theorem locate_freqWord {a : Addr} (h4 : a.toNat % 4 = 0) (hlo : 0x400 ≤ a.toNat) (hhi : a.toNat < 0x800) :
    locate a 4 = .ok (.freqWord ((a.toNat - 0x400) / 4)) := by
  simp [locate, wordPlace, hlo.not_gt, hhi, h4]

theorem locate_nodeWord {a : Addr} (h4 : a.toNat % 4 = 0) (hlo : 0x2000 ≤ a.toNat) (hhi : a.toNat < 0x3FF0) :
    locate a 4 = .ok (.nodeWord ((a.toNat - 0x2000) / 16) ((a.toNat - 0x2000) / 4 % 4)) := by
  have h1 : ¬ a.toNat < 0x400 := by omega
  have h2 : ¬ a.toNat < 0x800 := by omega
  simp [locate, wordPlace, h1, h2, hlo.not_gt, hhi, h4]

theorem locate_obufCell {a : Addr} (hlo : 0x40000 ≤ a.toNat) (hhi : a.toNat < 0x80000) :
    locate a 1 = .ok (.obufCell (a.toNat - 0x40000)) := by
  have h1 : ¬ a.toNat < 0x400 := by omega
  have h2 : ¬ a.toNat < 0x800 := by omega
  have h3 : ¬ a.toNat < 0x2000 := by omega
  have h4 : ¬ a.toNat < 0x3FF0 := by omega
  have h5 : ¬ a.toNat < 0x10000 := by omega
  have h6 : ¬ a.toNat < 0x20000 := by omega
  simp [locate, bytePlace, h1, h2, h3, h4, h5, h6, hlo.not_gt, hhi]

/-! ### Reads and writes of a located place -/

theorem memRead_of_locate {a : Addr} {n : Nat} {p : Place} (h : locate a n = .ok p) (s : State) :
    memRead a n s = .next { s with rdata := s.readPlace p } := by
  simp [memRead, h]

theorem memWrite_of_locate {a : Addr} {n : Nat} {p : Place} (h : locate a n = .ok p) (v : Word) (s : State) :
    memWrite a n v s = writePlace p v s := by
  simp [memWrite, h]

/-- `CMD` and `IN_LEN` are the only words of the register page a write can change, `10_state.md` R34 to R41. -/
theorem writePlace_register_ignored {k : Nat} (h0 : k ≠ 0) (h3 : k ≠ 3) (v : Word) (s : State) :
    writePlace (.register k) v s = .next s := by
  unfold writePlace
  split <;> simp_all

/-- Settles O8: the words of the reset state are the zero fields, and neither memory lists a cell. -/
theorem resetRegistersZero : Obligations.ResetRegistersZero := by
  unfold Obligations.ResetRegistersZero
  refine ⟨fun k => ?_, rfl, rfl, rfl, rfl, fun _ => rfl, fun _ => rfl, rfl⟩
  unfold State.registerWord
  split <;> rfl

/-- Settles O49: `STATUS` is four flags under 28 zero bits. -/
theorem statusWordBits : Obligations.StatusWordBits := by
  unfold Obligations.StatusWordBits
  intro s
  refine ⟨?_, ?_, ?_, ?_, fun k hk => ?_⟩
  · exact s.getLsbD_statusWord 0
  · exact s.getLsbD_statusWord 1
  · exact (Bool.eq_iff_iff.mp (s.getLsbD_statusWord 2)).trans s.err_eq_true_iff
  · exact s.getLsbD_statusWord 3
  · obtain ⟨j, rfl⟩ := Nat.exists_eq_add_of_le' hk
    exact s.getLsbD_statusWord (j + 4)

/-- Settles O51: offset 0x0C is word 3 of the register page. -/
theorem inLenKeepsLowBits : Obligations.InLenKeepsLowBits := by
  unfold Obligations.InLenKeepsLowBits
  intro s rest v hb hp
  rw [step_memWrite hb hp, memWrite_of_locate (locate_register (by decide) (by decide))]
  rfl

/-- Settles O50: every address of the register page reads as its word, and the words are the registers in turn. -/
theorem portReadsRegisters : Obligations.PortReadsRegisters := by
  unfold Obligations.PortReadsRegisters
  intro s rest a w hb hp hw
  have hword : a.toNat % 4 = 0 ∧ a.toNat < 0x400 ∧ s.registerWord (a.toNat / 4) = w := by
    obtain ⟨rfl, rfl⟩ | ⟨rfl, rfl⟩ | ⟨rfl, rfl⟩ | ⟨rfl, rfl⟩ | ⟨rfl, rfl⟩ | ⟨rfl, rfl⟩ | ⟨rfl, rfl⟩ |
      ⟨hlo, hhi, h4, rfl⟩ := hw
    iterate 7 exact ⟨rfl, by decide, rfl⟩
    exact ⟨h4, hhi, s.registerWord_reserved (by omega)⟩
  obtain ⟨h4, hhi, rfl⟩ := hword
  exact ⟨_, (step_memRead hb hp).trans (memRead_of_locate (locate_register h4 hhi) _), rfl, wordBytes_eq _⟩

/-- Settles O52: each address lies in one of the four ranges whose places ignore a write. -/
theorem readOnlyPlacesIgnoreWrites : Obligations.ReadOnlyPlacesIgnoreWrites := by
  unfold Obligations.ReadOnlyPlacesIgnoreWrites
  intro s rest a n v hb hp ha
  rw [step_memWrite hb hp]
  obtain ⟨rfl, h4, hcmd, hinLen, hhi | ⟨hlo, hhi⟩⟩ | ⟨rfl, hlo, hhi⟩ := ha
  · by_cases hreg : a.toNat < 0x400
    · rw [memWrite_of_locate (locate_register h4 hreg)]
      have h0 : a.toNat ≠ 0 := fun h => hcmd (BitVec.eq_of_toNat_eq h)
      have h3 : a.toNat ≠ 12 := fun h => hinLen (BitVec.eq_of_toNat_eq h)
      exact writePlace_register_ignored (by omega) (by omega) v _
    · rw [memWrite_of_locate (locate_freqWord h4 (by omega) hhi)]
      rfl
  · rw [memWrite_of_locate (locate_nodeWord h4 hlo hhi)]
    rfl
  · rw [memWrite_of_locate (locate_obufCell hlo hhi)]
    rfl

end Sys2Proof.Machine
end

section
/-! PROOF. SelectPair and Merge, one round: SelectPair returns two different open nodes where there are two, and what Merge writes
and leaves at every index. -/

namespace Sys2Proof.Machine

open scoped List

/-! ### Open nodes -/

/-- The indices of the unattached nodes below `k`. -/
def openNodes (N : List Node) (k : Nat) : Finset Nat :=
  (Finset.range k).filter fun i => (nodeAt N i).parentOffset = 0#8

theorem mem_openNodes {N : List Node} {k i : Nat} : i ∈ openNodes N k ↔ i < k ∧ (nodeAt N i).parentOffset = 0#8 := by
  simp [openNodes]

/-- The scan sees the open nodes in rising index order. -/
theorem unattachedFrom_rising (N : List Node) (i : Nat) : (unattachedFrom i N).Pairwise (·.index < ·.index) := by
  induction N generalizing i with
  | nil => exact .nil
  | cons n ns ih =>
    unfold unattachedFrom
    split
    · refine .cons (fun s hs => ?_) (ih (i + 1))
      obtain ⟨j, _, _, rfl⟩ := (mem_unattachedFrom ns (i + 1) s).mp hs
      show i < i + 1 + j
      omega
    · exact ih (i + 1)

theorem nodup_unattached_index (N : List Node) (k : Nat) : ((unattached N k).map (·.index)).Nodup :=
  List.pairwise_map.mpr ((unattachedFrom_rising _ 0).imp fun h => h.ne)

theorem mem_unattached_index {N : List Node} {k i : Nat} (hk : k ≤ N.length) :
    i ∈ (unattached N k).map (·.index) ↔ i ∈ openNodes N k := by
  simp only [List.mem_map, mem_unattached N hk, mem_openNodes]
  constructor
  · rintro ⟨s, ⟨hi, hp, _⟩, rfl⟩
    exact ⟨hi, hp⟩
  · rintro ⟨hi, hp⟩
    exact ⟨⟨i, (nodeAt N i).frequency⟩, ⟨hi, hp, rfl⟩, rfl⟩

theorem length_unattached {N : List Node} {k : Nat} (hk : k ≤ N.length) :
    (unattached N k).length = (openNodes N k).card := by
  rw [← List.length_map (·.index), ← List.toFinset_card_of_nodup (nodup_unattached_index N k)]
  congr 1
  ext i
  rw [List.mem_toFinset, mem_unattached_index hk]

/-! ### SelectPair -/

/-- One candidate: the new slots are two of the old slots and the candidate. -/
theorem considerSlot_subperm (p : Slot × Slot) (c : Slot) (cs : List Slot) :
    (considerSlot p c).1 :: (considerSlot p c).2 :: cs <+~ p.1 :: p.2 :: c :: cs := by
  have drop_candidate : p.1 :: p.2 :: cs <+~ p.1 :: p.2 :: c :: cs :=
    (((List.sublist_cons_self c cs).cons_cons _).cons_cons _).subperm
  obtain (⟨h, _⟩ | ⟨h, _⟩) | ⟨h, _⟩ | ⟨h, _⟩ := considerSlot_cases p c <;> rw [h]
  · exact drop_candidate
  · exact drop_candidate
  · exact (List.Perm.swap ..).subperm.trans (List.sublist_cons_self ..).subperm
  · exact ((List.sublist_cons_self ..).cons_cons _).subperm

/-- All candidates: the final slots are two of the list the scan ran over, at different positions. -/
theorem foldl_considerSlot_subperm (cs : List Slot) (p : Slot × Slot) :
    [(cs.foldl considerSlot p).1, (cs.foldl considerSlot p).2] <+~ p.1 :: p.2 :: cs := by
  induction cs generalizing p with
  | nil => exact .refl _
  | cons c cs ih => exact (ih (considerSlot p c)).trans (considerSlot_subperm p c cs)

/-- Where two nodes are open, SelectPair returns two different open nodes. -/
theorem selectPair_open {N : List Node} {k : Nat} (hk : k ≤ N.length) (h : 2 ≤ (openNodes N k).card) :
    ∃ s1 s2, selectPair N k = some (s1, s2) ∧ s1 ≠ s2 ∧ s1 ∈ openNodes N k ∧ s2 ∈ openNodes N k := by
  rw [← length_unattached hk] at h
  have hnodup := nodup_unattached_index N k
  have hmem := fun i => (mem_unattached_index (i := i) hk).mp
  unfold selectPair
  match unattached N k, h, hnodup, hmem with
  | a :: b :: cs, _, hnodup, hmem =>
    obtain ⟨l, hperm, hsub⟩ := foldl_considerSlot_subperm cs (a, b)
    have hindex := hperm.map (·.index)
    have hl := hsub.map (·.index)
    refine ⟨_, _, rfl, ?_, hmem _ (hl.subset (hindex.mem_iff.mpr ?_)), hmem _ (hl.subset (hindex.mem_iff.mpr ?_))⟩
    · simpa using hindex.nodup_iff.mp (hnodup.sublist hl)
    · simp
    · simp

/-! ### Merge -/

section Merge

variable {N : List Node} {k s1 s2 : Nat} (hk : k < N.length) (h1 : s1 < k) (h2 : s2 < k)

include hk h1 h2

/-- Every node after a Merge, `40_build_tree.md` R126. -/
theorem nodeAt_mergeNodes (i : Nat) :
    nodeAt (mergeNodes N k s1 s2) i =
      if i = k then
        { nodeAt N k with
          frequency := (nodeAt N s1).frequency + (nodeAt N s2).frequency
          rightChild := BitVec.ofNat 9 s1
          leftChild := BitVec.ofNat 9 s2 }
      else if i = s1 ∨ i = s2 then { nodeAt N i with parentOffset := BitVec.ofNat 8 (k - 255) }
      else nodeAt N i := by
  have hs1 : s1 < (joinPair N k s1 s2).length := by rw [length_joinPair]; omega
  have hs2 : s2 < (attach k s1 (joinPair N k s1 s2)).length := by rw [length_attach, length_joinPair]; omega
  simp only [mergeNodes, nodeAt_attach _ hs2, nodeAt_attach _ hs1, nodeAt_joinPair _ hk]
  by_cases hik : i = k
  · simp [hik, h1.ne', h2.ne']
  · by_cases hi2 : i = s2
    · by_cases h21 : s2 = s1
      · simp [hi2, h21, h1.ne]
      · simp [hi2, h21, h2.ne]
    · by_cases hi1 : i = s1
      · subst hi1
        simp [hi2, hik]
      · simp [hik, hi1, hi2]

theorem leftChild_mergeNodes (i : Nat) :
    (nodeAt (mergeNodes N k s1 s2) i).leftChild = if i = k then BitVec.ofNat 9 s2 else (nodeAt N i).leftChild := by
  rw [nodeAt_mergeNodes hk h1 h2]
  split
  · rfl
  · split <;> rfl

theorem rightChild_mergeNodes (i : Nat) :
    (nodeAt (mergeNodes N k s1 s2) i).rightChild = if i = k then BitVec.ofNat 9 s1 else (nodeAt N i).rightChild := by
  rw [nodeAt_mergeNodes hk h1 h2]
  split
  · rfl
  · split <;> rfl

theorem frequency_mergeNodes (i : Nat) :
    (nodeAt (mergeNodes N k s1 s2) i).frequency =
      if i = k then (nodeAt N s1).frequency + (nodeAt N s2).frequency else (nodeAt N i).frequency := by
  rw [nodeAt_mergeNodes hk h1 h2]
  split
  · rfl
  · split <;> rfl

theorem parentOffset_mergeNodes (i : Nat) :
    (nodeAt (mergeNodes N k s1 s2) i).parentOffset =
      if i = s1 ∨ i = s2 then BitVec.ofNat 8 (k - 255) else (nodeAt N i).parentOffset := by
  rw [nodeAt_mergeNodes hk h1 h2]
  split
  · rename_i hik
    rw [if_neg (by omega), hik]
  · split <;> rfl

end Merge

/-- The parent index an attached node holds is the merged node's, `10_state.md` R24. -/
theorem toNat_parentOffset {k : Nat} (hk : 256 ≤ k) (hk' : k ≤ 510) : (BitVec.ofNat 8 (k - 255)).toNat + 255 = k := by
  rw [BitVec.toNat_ofNat]
  omega

/-- A round attaches the pair and opens node `k`. -/
theorem openNodes_mergeNodes {N : List Node} {k s1 s2 : Nat} (hsize : N.length = 511) (hk : 256 ≤ k) (hk' : k ≤ 510)
    (h1 : s1 < k) (h2 : s2 < k) (hfresh : (nodeAt N k).parentOffset = 0#8) :
    openNodes (mergeNodes N k s1 s2) (k + 1) = insert k (((openNodes N k).erase s1).erase s2) := by
  ext i
  have hpo : BitVec.ofNat 8 (k - 255) ≠ 0#8 := fun h => by
    have := toNat_parentOffset hk hk'
    rw [h, BitVec.toNat_ofNat] at this
    omega
  rw [mem_openNodes, parentOffset_mergeNodes (by omega) h1 h2, Finset.mem_insert, Finset.mem_erase, Finset.mem_erase,
    mem_openNodes]
  by_cases hik : i = k
  · subst hik
    simp [hfresh, h1.ne', h2.ne']
  · by_cases hi : i = s1 ∨ i = s2
    · have hclosed : ¬ (i ≠ s2 ∧ i ≠ s1) := fun ⟨hi2, hi1⟩ => hi.elim hi1 hi2
      simp only [if_pos hi, hpo, hik, and_false, false_or, ← and_assoc, hclosed, false_and]
    · have hlt : i < k + 1 ↔ i < k := by omega
      obtain ⟨hi1, hi2⟩ := not_or.mp hi
      simp [hlt, hik, hi1, hi2]

theorem notMem_openNodes_erase (N : List Node) (k s1 s2 : Nat) : k ∉ ((openNodes N k).erase s1).erase s2 := fun hm =>
  (mem_openNodes.mp (Finset.mem_of_mem_erase (Finset.mem_of_mem_erase hm))).1.false

end Sys2Proof.Machine
end

section
/-! PROOF. The merge loop of BUILD, `40_build_tree.md` R122: with `node_count = k` the nodes below `k` form a forest of full binary
trees, `512 - k` in number, whose roots' weights add up to the whole table; after the last round the forest is the tree of
`10_state.md` R25. -/

namespace Sys2Proof.Machine

/-- The sum of the 256 entries of the table. -/
def tableWeight (freq : Vector Word 256) : Nat :=
  (freq.toList.map BitVec.toNat).sum

/-- Node `i` is exactly one of the two children of node `p`, `10_state.md` R25 (d). -/
def IsOneChild (N : List Node) (p i : Nat) : Prop :=
  ((nodeAt N p).leftChild.toNat = i ∧ (nodeAt N p).rightChild.toNat ≠ i) ∨
    ((nodeAt N p).rightChild.toNat = i ∧ (nodeAt N p).leftChild.toNat ≠ i)

/-- What holds of the array when `node_count = k`. -/
structure Forest (freq : Vector Word 256) (N : List Node) (k : Nat) : Prop where
  size : N.length = 511
  leaves : ∀ i, i < 256 → (nodeAt N i).leftChild = Config.noChild ∧ (nodeAt N i).rightChild = Config.noChild
  internals : ∀ i, 256 ≤ i → i < k →
    (nodeAt N i).leftChild.toNat < i ∧ (nodeAt N i).rightChild.toNat < i ∧
      (nodeAt N i).leftChild ≠ (nodeAt N i).rightChild
  fresh : ∀ i, k ≤ i → (nodeAt N i).parentOffset = 0#8
  parents : ∀ i, i < k → (nodeAt N i).parentOffset ≠ 0#8 →
    i < (nodeAt N i).parentOffset.toNat + 255 ∧ (nodeAt N i).parentOffset.toNat + 255 < k ∧
      IsOneChild N ((nodeAt N i).parentOffset.toNat + 255) i
  count : (openNodes N k).card + k = 512
  weight : ∑ i ∈ openNodes N k, (nodeAt N i).frequency.toNat = tableWeight freq

/-! ### The weights fit -/

/-- The weights need 40 bits, `40_build_tree.md` R127. -/
theorem tableWeight_lt (freq : Vector Word 256) : tableWeight freq < 2 ^ 40 := by
  have h : tableWeight freq ≤ (freq.toList.map BitVec.toNat).length • (2 ^ 32 - 1) := by
    refine List.sum_le_card_nsmul _ _ fun x hx => ?_
    obtain ⟨w, _, rfl⟩ := List.mem_map.mp hx
    exact Nat.le_pred_of_lt w.isLt
  simp at h
  omega

theorem tableWeight_eq_sum (freq : Vector Word 256) :
    tableWeight freq = ∑ i ∈ Finset.range 256, (nodeAt (initNodes freq) i).frequency.toNat := by
  rw [Finset.sum_range, tableWeight, ← Fin.sum_univ_getElem]
  refine Fintype.sum_equiv (finCongr (by simp)) _ _ fun i => ?_
  have hi : i.1 < 256 := by simpa using i.2
  simp [nodeAt_initNodes_leaf freq hi, initLeaf]
  omega

/-! ### Init -/

theorem forest_initNodes (freq : Vector Word 256) : Forest freq (initNodes freq) 256 := by
  have hleaf : ∀ i, i < 256 → (nodeAt (initNodes freq) i).parentOffset = 0#8 := fun i hi => by
    rw [nodeAt_initNodes_leaf freq hi]
    rfl
  have hopen : openNodes (initNodes freq) 256 = Finset.range 256 :=
    Finset.filter_true_of_mem fun i hi => hleaf i (Finset.mem_range.mp hi)
  exact {
    size := length_initNodes freq
    leaves := fun i hi => by rw [nodeAt_initNodes_leaf freq hi]; exact ⟨rfl, rfl⟩
    internals := fun i hlo hhi => absurd hhi hlo.not_gt
    fresh := fun i hi => by rw [nodeAt_initNodes_internal freq hi]; rfl
    parents := fun i hi hne => absurd (hleaf i hi) hne
    count := by rw [hopen, Finset.card_range]
    weight := by rw [hopen, tableWeight_eq_sum] }

/-! ### One round -/

section Round

variable {freq : Vector Word 256} {N : List Node} {k s1 s2 : Nat}

/-- The open nodes' weights after a round: the pair's two weights are in the new node's, and their sum does not overflow. -/
theorem Forest.weight_mergeNodes (h : Forest freq N k) (hk : 256 ≤ k) (hk' : k ≤ 510) (hne : s1 ≠ s2)
    (h1 : s1 ∈ openNodes N k) (h2 : s2 ∈ openNodes N k) :
    ∑ i ∈ openNodes (mergeNodes N k s1 s2) (k + 1), (nodeAt (mergeNodes N k s1 s2) i).frequency.toNat =
      tableWeight freq := by
  have hlt1 := (mem_openNodes.mp h1).1
  have hlt2 := (mem_openNodes.mp h2).1
  have hlen : k < N.length := by rw [h.size]; omega
  have h2' : s2 ∈ (openNodes N k).erase s1 := Finset.mem_erase.mpr ⟨hne.symm, h2⟩
  have hk_rest := notMem_openNodes_erase N k s1 s2
  have hrest : ∀ i ∈ ((openNodes N k).erase s1).erase s2,
      (nodeAt (mergeNodes N k s1 s2) i).frequency.toNat = (nodeAt N i).frequency.toNat := fun i hi => by
    rw [frequency_mergeNodes hlen hlt1 hlt2, if_neg fun hik : i = k => hk_rest (hik ▸ hi)]
  have hsplit := h.weight
  rw [← Finset.add_sum_erase _ _ h1, ← Finset.add_sum_erase _ _ h2'] at hsplit
  have hfit := tableWeight_lt freq
  rw [openNodes_mergeNodes h.size hk hk' hlt1 hlt2 (h.fresh k le_rfl), Finset.sum_insert hk_rest,
    Finset.sum_congr rfl hrest, frequency_mergeNodes hlen hlt1 hlt2, if_pos rfl, BitVec.toNat_add,
    Nat.mod_eq_of_lt (by omega), add_assoc, hsplit]

theorem Forest.count_mergeNodes (h : Forest freq N k) (hk : 256 ≤ k) (hk' : k ≤ 510) (hne : s1 ≠ s2)
    (h1 : s1 ∈ openNodes N k) (h2 : s2 ∈ openNodes N k) :
    (openNodes (mergeNodes N k s1 s2) (k + 1)).card + (k + 1) = 512 := by
  have hk_rest := notMem_openNodes_erase N k s1 s2
  have hcount := h.count
  rw [openNodes_mergeNodes h.size hk hk' (mem_openNodes.mp h1).1 (mem_openNodes.mp h2).1 (h.fresh k le_rfl),
    Finset.card_insert_of_notMem hk_rest, Finset.card_erase_of_mem (Finset.mem_erase.mpr ⟨hne.symm, h2⟩),
    Finset.card_erase_of_mem h1]
  omega

/-- Merging two different open nodes keeps the forest. -/
theorem Forest.mergeNodes (h : Forest freq N k) (hk : 256 ≤ k) (hk' : k ≤ 510) (hne : s1 ≠ s2)
    (h1 : s1 ∈ openNodes N k) (h2 : s2 ∈ openNodes N k) : Forest freq (mergeNodes N k s1 s2) (k + 1) := by
  have hlt1 := (mem_openNodes.mp h1).1
  have hlt2 := (mem_openNodes.mp h2).1
  have hlen : k < N.length := by rw [h.size]; omega
  have hleft := leftChild_mergeNodes hlen hlt1 hlt2
  have hright := rightChild_mergeNodes hlen hlt1 hlt2
  have hparent := parentOffset_mergeNodes hlen hlt1 hlt2
  have hs1 : (BitVec.ofNat 9 s1).toNat = s1 := by rw [BitVec.toNat_ofNat]; omega
  have hs2 : (BitVec.ofNat 9 s2).toNat = s2 := by rw [BitVec.toNat_ofNat]; omega
  refine
    { size := (length_mergeNodes ..).trans h.size
      leaves := fun i hi => ?leaves
      internals := fun i hlo hhi => ?internals
      fresh := fun i hi => ?fresh
      parents := fun i hi hatt => ?parents
      count := h.count_mergeNodes hk hk' hne h1 h2
      weight := h.weight_mergeNodes hk hk' hne h1 h2 }
  case leaves =>
    rw [hleft, hright, if_neg (by omega), if_neg (by omega)]
    exact h.leaves i hi
  case internals =>
    rw [hleft, hright]
    by_cases hik : i = k
    · simp only [hik, if_true, hs1, hs2]
      exact ⟨hlt2, hlt1, fun he => hne (by rw [← hs1, ← hs2, he])⟩
    · rw [if_neg hik, if_neg hik]
      exact h.internals i hlo (by omega)
  case fresh =>
    rw [hparent, if_neg (by omega)]
    exact h.fresh i (by omega)
  case parents =>
    rw [hparent] at hatt ⊢
    by_cases hpair : i = s1 ∨ i = s2
    · rw [if_pos hpair, toNat_parentOffset hk hk', IsOneChild, hleft, hright, if_pos rfl, if_pos rfl, hs1, hs2]
      omega
    · rw [if_neg hpair] at hatt ⊢
      have hik : i ≠ k := fun hik => hatt (hik ▸ h.fresh k le_rfl)
      obtain ⟨hlo, hhi, hchild⟩ := h.parents i (by omega) hatt
      rw [IsOneChild, hleft, hright, if_neg (by omega), if_neg (by omega)]
      exact ⟨hlo, by omega, hchild⟩

/-- SelectPair finds its pair in every round, so every round merges one. -/
theorem Forest.mergeRound (h : Forest freq N k) (hk : 256 ≤ k) (hk' : k ≤ 510) :
    Forest freq (mergeRound N k) (k + 1) := by
  have hcount := h.count
  obtain ⟨s1, s2, hsel, hne, h1, h2⟩ := selectPair_open (N := N) (k := k) (by rw [h.size]; omega) (by omega)
  simp only [Machine.mergeRound, hsel]
  exact h.mergeNodes hk hk' hne h1 h2

end Round

/-! ### The whole loop -/

theorem forest_mergeRounds (freq : Vector Word 256) {r : Nat} (hr : r ≤ 255) :
    Forest freq (mergeRounds (initNodes freq) r) (256 + r) := by
  induction r with
  | zero => exact forest_initNodes freq
  | succ r ih => exact (ih (by omega)).mergeRound (by omega) (by omega)

theorem forest_buildTree (freq : Vector Word 256) : Forest freq (buildTree freq) 511 :=
  forest_mergeRounds freq le_rfl

/-- With all nodes made one tree is left, and its root is node 510: a parent would have a greater index. -/
theorem Forest.openNodes_eq {freq : Vector Word 256} {N : List Node} (h : Forest freq N 511) :
    openNodes N 511 = {510} := by
  have hroot : 510 ∈ openNodes N 511 := by
    refine mem_openNodes.mpr ⟨by omega, by_contra fun hatt => ?_⟩
    obtain ⟨hlo, hhi, _⟩ := h.parents 510 (by omega) hatt
    omega
  have hcount := h.count
  obtain ⟨r, hr⟩ := Finset.card_eq_one.mp (show (openNodes N 511).card = 1 by omega)
  rw [hr, Finset.mem_singleton] at hroot
  rw [hr, hroot]

/-- A forest that has all 511 nodes has the shape of `10_state.md` R25. -/
theorem Forest.treeShape {freq : Vector Word 256} {N : List Node} (h : Forest freq N 511) : TreeShape freq N := by
  have hopen := h.openNodes_eq
  have hatt : ∀ i, i < 510 → (nodeAt N i).parentOffset ≠ 0#8 := fun i hi hp => by
    have hi' : i ∈ openNodes N 511 := mem_openNodes.mpr ⟨by omega, hp⟩
    rw [hopen, Finset.mem_singleton] at hi'
    omega
  exact {
    size := h.size
    leaves := h.leaves
    internals := fun i hlo hhi => h.internals i hlo (by omega)
    attached := hatt
    root := (mem_openNodes.mp (hopen ▸ Finset.mem_singleton_self 510)).2
    parents := fun i hi =>
      have ⟨hlo, _, hchild⟩ := h.parents i (by omega) (hatt i hi)
      ⟨hlo, hchild⟩
    rootWeight := by
      have hw := h.weight
      rwa [hopen, Finset.sum_singleton] at hw }

/-! ### Code assignment -/

/-- DeriveCode writes the code fields alone, at every index. -/
theorem nodeAt_assignCodes_tree (N : List Node) (i : Nat) :
    (nodeAt (assignCodes N) i).leftChild = (nodeAt N i).leftChild ∧
      (nodeAt (assignCodes N) i).rightChild = (nodeAt N i).rightChild ∧
      (nodeAt (assignCodes N) i).parentOffset = (nodeAt N i).parentOffset ∧
      (nodeAt (assignCodes N) i).frequency = (nodeAt N i).frequency := by
  by_cases hi : i < N.length
  · rw [nodeAt_assignCodes N hi]
    exact withCode_tree N _ i
  · have hi' : N.length ≤ i := by omega
    simp [nodeAt, hi']

theorem TreeShape.assignCodes {freq : Vector Word 256} {N : List Node} (h : TreeShape freq N) :
    TreeShape freq (assignCodes N) := by
  obtain ⟨hl, hr, hp, hf⟩ : _ ∧ _ ∧ _ ∧ _ := by simpa only [forall_and] using nodeAt_assignCodes_tree N
  constructor <;> simp only [hl, hr, hp, hf, length_assignCodes]
  exacts [h.size, h.leaves, h.internals, h.attached, h.root, h.parents, h.rootWeight]

/-- Settles O27, by the forest the merge loop keeps: after 255 rounds it is one tree, and the codes leave its shape. -/
theorem builtTreeShape : Obligations.BuiltTreeShape := by
  unfold Obligations.BuiltTreeShape
  intro freq
  exact (forest_buildTree freq).treeShape.assignCodes

end Sys2Proof.Machine
end

section
/-! PROOF. The memories over a command and through the port, `20_memory.md`: what a command leaves of them, and what each window of
the address map reads and takes. -/

namespace Sys2Proof.Machine

/-! ### A byte read depends on its own memory -/

theorem State.ibufByte_congr {s t : State} (h : t.ibuf = s.ibuf) : t.ibufByte = s.ibufByte := by
  funext j
  simp [State.ibufByte, h]

theorem State.obufByte_congr {s t : State} (h : t.obuf = s.obuf) : t.obufByte = s.obufByte := by
  funext j
  simp [State.obufByte, h]

/-! ### What a command leaves -/

/-- What every command leaves, however it ends. -/
theorem exec_frame {i : Instr} {s t : State} (h : exec i s = .next t) :
    t.cmd = s.cmd ∧ t.inLen = s.inLen ∧ t.freq = s.freq ∧ t.pending = s.pending ∧ t.rdata = s.rdata ∧
      t.busy = false ∧ t.ibuf = s.ibuf := by
  obtain ⟨_, rfl⟩ | ⟨e, rfl⟩ | ⟨_, _, rfl⟩ | ⟨bs, n, p, _, _, _, _, rfl⟩ := exec_cases h <;>
    exact ⟨rfl, rfl, rfl, rfl, rfl, rfl, rfl⟩

/-- NOP, and a BUILD that is not refused, neither store a result nor fail. -/
theorem exec_obuf {i : Instr} {s t : State} (h : exec i s = .next t)
    (hi : i = .nop ∨ (i = .build ∧ s.built = false)) : t.obuf = s.obuf := by
  obtain rfl | ⟨rfl, hb⟩ := hi
  · cases h
    rfl
  · obtain ⟨hbuilt, _⟩ | ⟨_, rfl⟩ := execBuild_cases h
    · rw [hb] at hbuilt
      cases hbuilt
    · rfl

/-- Settles O15: the frame common to all commands, then the tree (`exec_tree`) and `OBUF` for the commands that leave them. -/
theorem commandFrame : Obligations.CommandFrame := by
  unfold Obligations.CommandFrame
  intro i s t h
  obtain ⟨hcmd, hinLen, hfreq, hpending, hrdata, hbusy, hibuf⟩ := exec_frame h
  refine ⟨hcmd, hinLen, hfreq, hpending, hrdata, hbusy, congrFun (State.ibufByte_congr hibuf), fun hi => ?_,
    fun hi => congrFun (State.obufByte_congr (exec_obuf h hi))⟩
  obtain ⟨hbuilt, hnodes, hcount⟩ | ⟨hbuild, _⟩ := exec_tree h
  · exact ⟨hbuilt, hcount, congrFun (State.node_congr hnodes)⟩
  · exact absurd hbuild hi

/-! ### The address of each cell -/

theorem toNat_addr {a : Nat} (h : a < 2 ^ 20) : (BitVec.ofNat 20 a).toNat = a := by
  rw [BitVec.toNat_ofNat, Nat.mod_eq_of_lt h]

theorem locate_ibufCell {a : Addr} (hlo : 0x10000 ≤ a.toNat) (hhi : a.toNat < 0x20000) :
    locate a 1 = .ok (.ibufCell (a.toNat - 0x10000)) := by
  have h1 : ¬ a.toNat < 0x400 := by omega
  have h2 : ¬ a.toNat < 0x800 := by omega
  have h3 : ¬ a.toNat < 0x2000 := by omega
  have h4 : ¬ a.toNat < 0x3FF0 := by omega
  simp [locate, bytePlace, h1, h2, h3, h4, hlo.not_gt, hhi]

theorem locate_freqAddr {i : Nat} (hi : i < 256) :
    locate (BitVec.ofNat 20 (0x00400 + 4 * i)) 4 = .ok (.freqWord i) := by
  have ha := toNat_addr (a := 0x00400 + 4 * i) (by omega)
  rw [locate_freqWord (by omega) (by omega) (by omega), ha, show (0x00400 + 4 * i - 0x400) / 4 = i by omega]

theorem locate_nodeAddr {i k : Nat} (hi : i < 511) (hk : k < 4) :
    locate (BitVec.ofNat 20 (0x02000 + 16 * i + 4 * k)) 4 = .ok (.nodeWord i k) := by
  have ha := toNat_addr (a := 0x02000 + 16 * i + 4 * k) (by omega)
  rw [locate_nodeWord (by omega) (by omega) (by omega), ha,
    show (0x02000 + 16 * i + 4 * k - 0x2000) / 16 = i by omega,
    show (0x02000 + 16 * i + 4 * k - 0x2000) / 4 % 4 = k by omega]

theorem locate_ibufAddr {j : Nat} (hj : j < 65536) :
    locate (BitVec.ofNat 20 (0x10000 + j)) 1 = .ok (.ibufCell j) := by
  have ha := toNat_addr (a := 0x10000 + j) (by omega)
  rw [locate_ibufCell (by omega) (by omega), ha, Nat.add_sub_cancel_left]

theorem locate_obufAddr {j : Nat} (hj : j < 262144) :
    locate (BitVec.ofNat 20 (0x40000 + j)) 1 = .ok (.obufCell j) := by
  have ha := toNat_addr (a := 0x40000 + j) (by omega)
  rw [locate_obufCell (by omega) (by omega), ha, Nat.add_sub_cancel_left]

/-! ### A step that is a transaction of a located place -/

/-- The host's list of steps is no place on the port. -/
@[simp] theorem State.readPlace_pending (s : State) (rest : List HostStep) (p : Place) :
    State.readPlace { s with pending := rest } p = s.readPlace p := by
  cases p <;> rfl

section Transaction

variable {s : State} {rest : List HostStep} {a : Addr} {n : Nat} {p : Place}

theorem step_memRead_of_locate (hl : locate a n = .ok p) (hb : s.busy = false)
    (hp : s.pending = .memRead a n :: rest) :
    step s = .next { s with pending := rest, rdata := s.readPlace p } := by
  rw [step_memRead hb hp, memRead_of_locate hl, State.readPlace_pending]

theorem step_memWrite_of_locate (hl : locate a n = .ok p) (hb : s.busy = false) {v : Word}
    (hp : s.pending = .memWrite a n v :: rest) : step s = writePlace p v { s with pending := rest } := by
  rw [step_memWrite hb hp, memWrite_of_locate hl]

end Transaction

/-- Settles O53: the address is that of the place `FREQ[i]`, which ignores a write. -/
theorem freqWindowShowsTable : Obligations.FreqWindowShowsTable := by
  unfold Obligations.FreqWindowShowsTable
  intro s rest i hi hb
  have hl := locate_freqAddr hi
  refine ⟨fun hp => ?_, fun v hp => step_memWrite_of_locate hl hb hp⟩
  rw [step_memRead_of_locate hl hb hp, State.readPlace, Vector.getElem?_eq_getElem hi, Option.getD_some]

/-! ### The words of a node -/

/-- A concatenation is a sum: the parts share no bit. -/
theorem toNat_append_eq_add {m n : Nat} (x : BitVec m) (y : BitVec n) :
    (x ++ y).toNat = 2 ^ n * x.toNat + y.toNat := by
  rw [BitVec.toNat_append, Nat.shiftLeft_eq, Nat.mul_comm, ← Nat.two_pow_add_eq_or_of_lt y.isLt]

theorem Node.toNat_word_zero (n : Node) :
    (Node.word n 0).toNat = n.leftChild.toNat + 2 ^ 16 * n.rightChild.toNat := by
  simp only [Node.word, toNat_append_eq_add, BitVec.toNat_ofNat]
  omega

theorem Node.toNat_word_one (n : Node) :
    (Node.word n 1).toNat = n.parentOffset.toNat + 2 ^ 8 * n.codeLength.toNat + 2 ^ 16 * n.codeBits.toNat := by
  simp only [Node.word, toNat_append_eq_add, BitVec.toNat_ofNat]
  omega

theorem Node.toNat_word_two (n : Node) : (Node.word n 2).toNat = n.frequency.toNat % 2 ^ 32 := by
  simp only [Node.word, BitVec.extractLsb'_toNat, Nat.shiftRight_zero]

theorem Node.toNat_word_three (n : Node) : (Node.word n 3).toNat = n.frequency.toNat / 2 ^ 32 := by
  have hf := n.frequency.isLt
  simp only [Node.word, toNat_append_eq_add, BitVec.extractLsb'_toNat, Nat.shiftRight_eq_div_pow, BitVec.toNat_ofNat]
  omega

/-- Before a BUILD a node is a free value (log entry 5). -/
theorem State.node_of_unwritten {s : State} (h : s.nodes.contents = none) (i : Nat) :
    s.node i = Config.nodeFree s.nodes.fill i := by
  simp [State.node, h]

/-- Settles O54: the address is that of word `k` of node `i`, which ignores a write, and the four words add up the fields. -/
theorem nodeWindowShowsNodes : Obligations.NodeWindowShowsNodes := by
  unfold Obligations.NodeWindowShowsNodes
  refine ⟨fun s rest i k hi hk hb => ?_,
    fun n => ⟨Node.toNat_word_zero n, Node.toNat_word_one n, Node.toNat_word_two n, Node.toNat_word_three n⟩⟩
  have hl := locate_nodeAddr hi hk
  exact ⟨step_memRead_of_locate hl hb, fun v => step_memWrite_of_locate hl hb,
    fun hnone => State.node_of_unwritten hnone i⟩

/-- Settles O55: each address is that of its cell; the write to an `IBUF` cell is the one that stores. -/
theorem bufferWindows : Obligations.BufferWindows := by
  unfold Obligations.BufferWindows
  refine ⟨fun s rest j v hj hb => ?_, fun s rest j v hj hb => ?_⟩
  · have hl := locate_ibufAddr hj
    refine ⟨fun hp => ⟨_, step_memWrite_of_locate hl hb hp, ?_, fun k hk => ?_, rfl⟩, step_memRead_of_locate hl hb⟩
    · exact State.ibufByte_write_same { s with pending := rest } j _
    · exact State.ibufByte_write_other { s with pending := rest } hk _
  · have hl := locate_obufAddr hj
    exact ⟨step_memRead_of_locate hl hb, step_memWrite_of_locate hl hb⟩

end Sys2Proof.Machine
end

section
/-! PROOF. The accesses the port takes, `20_memory.md` R66, R70, R75: exactly those some window takes, and every one of them, of
whatever place, answers a next state. -/

namespace Sys2Proof.Machine

/-! ### The windows and the address map -/

/-- The five windows by their bounds. -/
theorem accessWellFormed_iff (a : Addr) (n : Nat) :
    accessWellFormed a n = true ↔
      (n = 4 ∧ a.toNat % 4 = 0 ∧
          (a.toNat < 0x400 ∨ (0x400 ≤ a.toNat ∧ a.toNat < 0x800) ∨ (0x2000 ≤ a.toNat ∧ a.toNat < 0x3FF0))) ∨
        (n = 1 ∧ ((0x10000 ≤ a.toNat ∧ a.toNat < 0x20000) ∨ (0x40000 ≤ a.toNat ∧ a.toNat < 0x80000))) := by
  simp only [accessWellFormed, portWindows, Window.takes, List.any_cons, List.any_nil, Bool.or_eq_true,
    Bool.and_eq_true, decide_eq_true_eq, beq_iff_eq, Bool.false_eq_true, or_false]
  omega

/-- The address map has a place exactly where a window takes the access. -/
theorem exists_locate_eq_ok_iff (a : Addr) (n : Nat) :
    (∃ p, locate a n = .ok p) ↔ accessWellFormed a n = true := by
  rw [accessWellFormed_iff]
  constructor
  · rintro ⟨p, hp⟩
    have hcases := locate_ok_cases hp
    tauto
  · rintro (⟨rfl, h4, hhi | ⟨hlo, hhi⟩ | ⟨hlo, hhi⟩⟩ | ⟨rfl, ⟨hlo, hhi⟩ | ⟨hlo, hhi⟩⟩)
    · exact ⟨_, locate_register h4 hhi⟩
    · exact ⟨_, locate_freqWord h4 hlo hhi⟩
    · exact ⟨_, locate_nodeWord h4 hlo hhi⟩
    · exact ⟨_, locate_ibufCell hlo hhi⟩
    · exact ⟨_, locate_obufCell hlo hhi⟩

/-- The unmapped ranges of `20_memory.md` R62. -/
def Unmapped (a : Addr) : Prop :=
  (0x00800 ≤ a.toNat ∧ a.toNat ≤ 0x01FFF) ∨ (0x03FF0 ≤ a.toNat ∧ a.toNat ≤ 0x0FFFF) ∨
    (0x20000 ≤ a.toNat ∧ a.toNat ≤ 0x3FFFF) ∨ 0x80000 ≤ a.toNat

theorem locate_unmapped {a : Addr} (h : Unmapped a) (n : Nat) : locate a n = .error .unmapped := by
  unfold Unmapped at h
  simp only [locate]
  split_ifs
  · omega
  · omega
  · rfl
  · omega
  · rfl
  · omega
  · rfl
  · omega
  · rfl

/-! ### A located access answers a next state -/

/-- Every command completes, `45_system.md` R191. -/
theorem exists_exec_eq_next (i : Instr) (s : State) : ∃ t, exec i s = .next t := by
  obtain ⟨x, hx⟩ := exec_effect i s
  exact ⟨_, hx s .rfl⟩

theorem exists_writeCmd_eq_next (w : Word) (s : State) : ∃ t, writeCmd w s = .next t := by
  unfold writeCmd
  split
  · exact exists_exec_eq_next _ _
  · exact ⟨_, rfl⟩

theorem exists_writePlace_eq_next (p : Place) (v : Word) (s : State) : ∃ t, writePlace p v s = .next t := by
  unfold writePlace
  split
  · exact exists_writeCmd_eq_next v s
  all_goals exact ⟨_, rfl⟩

theorem portStop_ne_next (e : PortError) (t : State) : portStop e ≠ .next t := by
  cases e <;> exact nofun

theorem memRead_of_locate_error {a : Addr} {n : Nat} {e : PortError} (h : locate a n = .error e) (s : State) :
    memRead a n s = portStop e := by
  simp [memRead, h]

theorem memWrite_of_locate_error {a : Addr} {n : Nat} {e : PortError} (h : locate a n = .error e) (v : Word)
    (s : State) : memWrite a n v s = portStop e := by
  simp [memWrite, h]

/-- A transaction that answers a next state at every place and stops on every port error is taken exactly when it is well-formed. -/
theorem exists_eq_next_iff_of_locate {a : Addr} {n : Nat} {o : Host.Outcome State Fault Refusal}
    (hok : ∀ p, locate a n = .ok p → ∃ t, o = .next t) (herror : ∀ e, locate a n = .error e → o = portStop e) :
    (∃ t, o = .next t) ↔ accessWellFormed a n = true := by
  rw [← exists_locate_eq_ok_iff]
  constructor
  · rintro ⟨t, ht⟩
    cases hl : locate a n with
    | error e => exact absurd ((herror e hl).symm.trans ht) (portStop_ne_next e t)
    | ok p => exact ⟨p, rfl⟩
  · rintro ⟨p, hl⟩
    exact hok p hl

theorem exists_memRead_eq_next_iff (a : Addr) (n : Nat) (s : State) :
    (∃ t, memRead a n s = .next t) ↔ accessWellFormed a n = true :=
  exists_eq_next_iff_of_locate (fun _ hl => ⟨_, memRead_of_locate hl s⟩) fun _ hl => memRead_of_locate_error hl s

theorem exists_memWrite_eq_next_iff (a : Addr) (n : Nat) (v : Word) (s : State) :
    (∃ t, memWrite a n v s = .next t) ↔ accessWellFormed a n = true :=
  exists_eq_next_iff_of_locate (fun p hl => memWrite_of_locate hl v s ▸ exists_writePlace_eq_next p v s)
    fun _ hl => memWrite_of_locate_error hl v s

/-- A pulse on `rst` is always taken, `70_reset_and_hazards.md` R230. -/
theorem step_rst {s : State} {rest : List HostStep} (hp : s.pending = .rst :: rest) :
    step s = .next (State.applyReset { s with pending := rest }) := by
  simp [step, stepPending, hp, hostStep]

/-- Settles O56: a transaction is taken exactly where the address map has a place for it, and in an unmapped range it has none. -/
theorem portTakesExactlyDefinedAccesses : Obligations.PortTakesExactlyDefinedAccesses := by
  unfold Obligations.PortTakesExactlyDefinedAccesses
  refine ⟨fun s e rest hb hp => ?_, fun s a n v rest hb hp ha => ?_⟩
  · cases e with
    | memRead a n => rw [step_memRead hb hp]; exact exists_memRead_eq_next_iff a n _
    | memWrite a n v => rw [step_memWrite hb hp]; exact exists_memWrite_eq_next_iff a n v _
    | rst => exact iff_of_true ⟨_, step_rst hp⟩ rfl
  · have hl := locate_unmapped ha n
    obtain hp | hp := hp
    · rw [step_memRead hb hp, memRead_of_locate_error hl]
      rfl
    · rw [step_memWrite hb hp, memWrite_of_locate_error hl]
      rfl

end Sys2Proof.Machine
end

section
/-! PROOF. The command words, `30_encoding.md` R99, R100: decode and encode are each other's inverse, and every other word is rejected. -/

namespace Sys2Proof.Machine

@[simp] theorem decode_encode (i : Instr) : decode (encode i) = .ok i := by
  cases i <;> rfl

theorem eq_encode_of_decode {w : Word} {i : Instr} (h : decode w = .ok i) : w = encode i := by
  rw [decode_eq] at h
  split_ifs at h with h0 h1 h2 h3 <;> cases h
  · exact h0
  · exact h1
  · exact h2
  · exact h3

theorem decode_eq_error_iff (w : Word) : decode w = .error .reservedOpcode ↔ 4 ≤ w.toNat := by
  rw [decode_eq]
  split_ifs with h0 h1 h2 h3
  · simp [h0]
  · simp [h1]
  · simp [h2]
  · simp [h3]
  · simp only [← BitVec.toNat_inj, BitVec.toNat_ofNat] at h0 h1 h2 h3
    exact iff_of_true rfl (by omega)

/-- Settles O1: the four encodings, and three values from 4 up. -/
theorem commandWordsDecode : Obligations.CommandWordsDecode :=
  ⟨decode_encode .nop, decode_encode .build, decode_encode .compress, decode_encode .decompress,
    (decode_eq_error_iff _).mpr (by decide), (decode_eq_error_iff _).mpr (by decide),
    (decode_eq_error_iff _).mpr (by decide)⟩

/-- Settles O2: `decode_encode` with its converse, and the rejected words. -/
theorem decodeInvertsEncode : Obligations.DecodeInvertsEncode := by
  unfold Obligations.DecodeInvertsEncode
  refine ⟨fun w i => ⟨eq_encode_of_decode, fun h => ?_⟩, decode_eq_error_iff⟩
  rw [h, decode_encode]

end Sys2Proof.Machine
end

section
/-! PROOF. `LOAD` of `30_encoding.md` R105: the byte writes fill `IBUF` from cell 0 on, and the last write sets `IN_LEN`. -/

namespace Sys2Proof.Machine

/-! ### Several steps -/

theorem run_succ_of_step {M : Host.Core} {s t : M.State} (h : M.step s = .next t) (k : Nat) :
    M.run (k + 1) s = M.run k t := by
  simp only [Host.Core.run, h]

theorem runSteps_succ {s t : State} (h : step s = .next t) (k : Nat) : runSteps (k + 1) s = runSteps k t :=
  run_succ_of_step (M := core) h k

/-! ### Storing a row of bytes -/

/-- Store the bytes one after the other from cell `j` on. -/
def Memory.writeFrom (m : Memory) : Nat → List Byte → Memory
  | _, [] => m
  | j, b :: bs => (m.write j b).writeFrom (j + 1) bs

theorem Memory.get?_writeFrom_of_lt (m : Memory) (bs : List Byte) {j k : Nat} (h : k < j) :
    (m.writeFrom j bs).get? k = m.get? k := by
  induction bs generalizing m j with
  | nil => rfl
  | cons b bs ih => rw [Memory.writeFrom, ih _ (by omega), Memory.get?_write_other _ h.ne]

theorem Memory.get?_writeFrom_add (m : Memory) (bs : List Byte) (j i : Nat) :
    (m.writeFrom j bs).get? (j + i) = bs[i]?.or (m.get? (j + i)) := by
  induction bs generalizing m j i with
  | nil => rfl
  | cons b bs ih =>
    rw [Memory.writeFrom]
    cases i with
    | zero => simp [Memory.get?_writeFrom_of_lt]
    | succ i =>
      rw [show j + (i + 1) = j + 1 + i by omega, ih, Memory.get?_write_other _ (by omega)]
      rfl

@[simp] theorem Memory.fill_writeFrom (m : Memory) (bs : List Byte) (j : Nat) : (m.writeFrom j bs).fill = m.fill := by
  induction bs generalizing m j with
  | nil => rfl
  | cons b bs ih => exact ih _ _

/-! ### The steps of a `LOAD` -/

section Load

variable {s : State} {rest : List HostStep}

/-- The write of one byte to `IBUF`, `20_memory.md` R65. -/
theorem step_write_ibuf {j : Nat} {b : Byte} (hj : j < 65536) (hb : s.busy = false)
    (hp : s.pending = .memWrite (BitVec.ofNat 20 (0x10000 + j)) 1 (b.setWidth 32) :: rest) :
    step s = .next { s with pending := rest, ibuf := s.ibuf.write j b } := by
  rw [step_memWrite_of_locate (locate_ibufAddr hj) hb hp, writePlace, BitVec.setWidth_setWidth_of_le _ (by decide),
    BitVec.setWidth_eq]

/-- The write of a length to `IN_LEN`, `10_state.md` R37. -/
theorem step_write_inLen {n : Nat} (hb : s.busy = false)
    (hp : s.pending = .memWrite 0x0000C 4 (BitVec.ofNat 32 n) :: rest) :
    step s = .next { s with pending := rest, inLen := BitVec.ofNat 16 n } := by
  have hl : locate 0x0000C 4 = .ok (.register 3) := locate_register (by decide) (by decide)
  rw [step_memWrite_of_locate hl hb hp, writePlace, BitVec.setWidth_ofNat_of_le (by decide)]

/-- The byte writes of a `LOAD` store the bytes in `IBUF` and change nothing else. -/
theorem runSteps_loadFrom {bs : List Byte} {j : Nat} (hb : s.busy = false) (hlen : j + bs.length ≤ 65536)
    (hp : s.pending = loadFrom j bs ++ rest) (k : Nat) :
    runSteps (bs.length + k) s = runSteps k { s with pending := rest, ibuf := s.ibuf.writeFrom j bs } := by
  induction bs generalizing s j with
  | nil =>
    subst hp
    rw [List.length_nil, Nat.zero_add]
    rfl
  | cons b bs ih =>
    rw [List.length_cons] at hlen ⊢
    rw [Nat.add_right_comm]
    exact (runSteps_succ (step_write_ibuf (by omega) hb hp) _).trans (ih hb (by omega) rfl)

/-- `LOAD` as a whole. -/
theorem runSteps_scriptLoad {bs : List Byte} (hb : s.busy = false) (hlen : bs.length ≤ 65536)
    (hp : s.pending = scriptLoad bs ++ rest) (k : Nat) :
    runSteps (bs.length + 1 + k) s =
      runSteps k { s with pending := rest, ibuf := s.ibuf.writeFrom 0 bs, inLen := BitVec.ofNat 16 bs.length } := by
  rw [scriptLoad, List.append_assoc] at hp
  rw [Nat.add_assoc, runSteps_loadFrom hb (by omega) hp, Nat.add_comm 1]
  refine runSteps_succ ?_ k
  exact step_write_inLen hb rfl

end Load

/-- Settles O57: `LOAD` stores the bytes from cell 0 on, and `IN_LEN` holds their number. -/
theorem loadFillsTheInput : Obligations.LoadFillsTheInput := by
  unfold Obligations.LoadFillsTheInput
  intro s bs rest hb hlen hp
  have hinLen : (BitVec.ofNat 16 bs.length).toNat = bs.length := by
    rw [BitVec.toNat_ofNat, Nat.mod_eq_of_lt hlen]
  have hcell : ∀ i, (s.ibuf.writeFrom 0 bs).get? i = bs[i]?.or (s.ibuf.get? i) := fun i => by
    simpa using s.ibuf.get?_writeFrom_add bs 0 i
  refine ⟨_, runSteps_scriptLoad hb hlen.le hp 0, ?_, hinLen, fun j hj => ?_, rfl⟩
  · apply List.ext_getElem
    · rw [State.inputBytes_length, hinLen]
    · intro i _ hi
      simp [State.inputBytes, State.ibufByte, hcell, hi]
  · simp [State.ibufByte, hcell, hj]

end Sys2Proof.Machine
end

section
/-! PROOF. The codes BUILD writes, `41_code_table.md` R140 to R145: DeriveCode's walk collects the branches from the root to the leaf,
so a code is a leading 1 and that path, or a leading 0 and the raw byte; and no code is the start of another. -/

namespace Sys2Proof.Machine

/-! ### Paths in a tree -/

/-- A path from a node stops at the first leaf, so no path to a leaf goes on to another. -/
theorem Descends.eq_of_isPrefix {node : Nat → Node} {n m m' : Nat} {path path' : List Bool}
    (h : Descends node n path m) (h' : Descends node n path' m') (hp : path.IsPrefix path') : m = m' := by
  induction h generalizing path' with
  | last n b hleaf =>
    cases h' with
    | last => rw [(List.cons_prefix_cons.mp hp).1]
    | down _ _ _ _ hinner _ =>
      rw [(List.cons_prefix_cons.mp hp).1, hinner] at hleaf
      cases hleaf
  | down n b path m hinner _ ih =>
    cases h' with
    | last _ _ hleaf =>
      rw [(List.cons_prefix_cons.mp hp).1, hleaf] at hinner
      cases hinner
    | down _ _ _ _ _ hrest =>
      obtain ⟨rfl, htail⟩ := List.cons_prefix_cons.mp hp
      exact ih hrest htail

/-- Shifting a bit in, as DeriveCode does, is arithmetic: the places do not overlap. -/
theorem shiftLeft_one_or_toNat (value : Nat) (bit : Bool) : value <<< 1 ||| bit.toNat = value * 2 + bit.toNat := by
  rw [← Nat.shiftLeft_add_eq_or_of_lt (Bool.toNat_lt bit), Nat.shiftLeft_eq, Nat.pow_one]

section Walk

variable {freq : Vector Word 256} {N : List Node} (h : TreeShape freq N)

include h

/-- The leaves are the symbols' nodes, `10_state.md` R25 (a), (b). -/
theorem TreeShape.isLeaf_nodeAt {i : Nat} (hi : i ≤ 510) : isLeaf (nodeAt N i) = decide (i < 256) := by
  by_cases hleaf : i < 256
  · simp [isLeaf, h.leaves i hleaf, hleaf]
  · obtain ⟨_, _, hne⟩ := h.internals i (by omega) hi
    have hchild : ¬ ((nodeAt N i).leftChild = Config.noChild ∧ (nodeAt N i).rightChild = Config.noChild) :=
      fun ⟨hl, hr⟩ => hne (hl.trans hr.symm)
    simpa [isLeaf, hleaf] using hchild

/-- One round of DeriveCode's walk below the root: it goes to the parent `p` and shifts in the branch that leads back. -/
theorem TreeShape.exists_walkUp_succ {n : Nat} (hn : n < 510) :
    ∃ p bit, n < p ∧ 256 ≤ p ∧ p ≤ 510 ∧ childOf (nodeAt N p) bit = n ∧
      ∀ fuel value steps, walkUp N (fuel + 1) n value steps = walkUp N fuel p (value * 2 + bit.toNat) (steps + 1) := by
  have hatt := h.attached n hn
  obtain ⟨hlt, hchild⟩ := h.parents n hn
  have hoff := (nodeAt N n).parentOffset.isLt
  refine ⟨_, decide ((nodeAt N ((nodeAt N n).parentOffset.toNat + 255)).rightChild.toNat = n), hlt, ?_, by omega, ?_,
    fun fuel value steps => ?_⟩
  · have hne : (nodeAt N n).parentOffset.toNat ≠ 0 := fun h0 => hatt (BitVec.eq_of_toNat_eq h0)
    omega
  · obtain ⟨hleft, hright⟩ | ⟨hright, _⟩ := hchild
    · simp [childOf, hright, hleft]
    · simp [childOf, hright]
  · rw [← shiftLeft_one_or_toNat, Bool.toNat, Bool.cond_decide, walkUp, if_neg hatt]

/-- The walk from an inner node, with a path from there to `m` in hand, ends with the path from the root. -/
theorem TreeShape.exists_descends_walkUp {fuel n m : Nat} {path : List Bool} (hlo : 256 ≤ n) (hhi : n ≤ 510)
    (hfuel : 510 ≤ n + fuel) (hd : Descends (nodeAt N) n path m) :
    ∃ path', Descends (nodeAt N) 510 path' m ∧
      walkUp N fuel n (BitVec.ofBoolListLE path).toNat path.length =
        ((BitVec.ofBoolListLE path').toNat, path'.length) := by
  induction fuel generalizing n path with
  | zero =>
    obtain rfl : n = 510 := by omega
    exact ⟨path, hd, rfl⟩
  | succ fuel ih =>
    by_cases hroot : n = 510
    · subst hroot
      exact ⟨path, hd, by simp [walkUp, h.root]⟩
    · obtain ⟨p, bit, hlt, hplo, hphi, hchild, hwalk⟩ := h.exists_walkUp_succ (n := n) (by omega)
      have hinner : isLeaf (nodeAt N (childOf (nodeAt N p) bit)) = false := by
        rw [hchild, h.isLeaf_nodeAt hhi]
        simpa using hlo
      rw [hwalk, ← BitVec.toNat_concat]
      exact ih hplo hphi (by omega) (.down p bit path m hinner (hchild ▸ hd))

/-- The walk of DeriveCode from a leaf collects the path from the root to it, the root's branch as bit 0. -/
theorem TreeShape.exists_descends_walkUp_leaf {i : Nat} (hi : i < 256) :
    ∃ path, Descends (nodeAt N) 510 path i ∧
      walkUp N 255 i 0 0 = ((BitVec.ofBoolListLE path).toNat, path.length) := by
  obtain ⟨p, bit, _, hplo, hphi, hchild, hwalk⟩ := h.exists_walkUp_succ (n := i) (by omega)
  have hleaf : isLeaf (nodeAt N (childOf (nodeAt N p) bit)) = true := by
    rw [hchild, h.isLeaf_nodeAt (by omega)]
    simpa using hi
  have hd := Descends.last p bit hleaf
  rw [hchild] at hd
  obtain ⟨path, hpath, hrest⟩ := h.exists_descends_walkUp (fuel := 254) hplo hphi (by omega) hd
  have hbit : (BitVec.ofBoolListLE [bit]).toNat = 0 * 2 + bit.toNat := BitVec.toNat_concat _ _
  exact ⟨path, hpath, by rw [hwalk 254, ← hbit]; exact hrest⟩

end Walk

/-! ### The stored code -/

/-- DeriveCode reads fields that code assignment leaves alone, `40_build_tree.md` R128. -/
theorem walkUp_assignCodes (N : List Node) (fuel n value steps : Nat) :
    walkUp (assignCodes N) fuel n value steps = walkUp N fuel n value steps := by
  induction fuel generalizing n value steps with
  | zero => rfl
  | succ fuel ih =>
    obtain ⟨_, hright, hparent, _⟩ : _ ∧ _ ∧ _ ∧ _ := by simpa only [forall_and] using nodeAt_assignCodes_tree N
    simp only [walkUp, hright, hparent, ih]

/-- The bits of a symbol's code, `41_code_table.md` R143, R144: a 1 and the path where it has at most 7 branches, else a 0
and the raw byte. -/
def pathCode (path : List Bool) (b : Byte) : List Bool :=
  if path.length ≤ 7 then true :: path else false :: rawBits b

@[simp] theorem length_rawBits (b : Byte) : (rawBits b).length = 8 := by
  simp [rawBits]

theorem length_pathCode_le (path : List Bool) (b : Byte) : (pathCode path b).length ≤ 9 := by
  unfold pathCode
  split
  · rw [List.length_cons]
    omega
  · simp

theorem toNat_ofBoolListLE_rawBits (b : Byte) : (BitVec.ofBoolListLE (rawBits b)).toNat = b.toNat := by
  apply Nat.eq_of_testBit_eq
  intro k
  rw [BitVec.testBit_toNat, BitVec.testBit_toNat, BitVec.getLsbD_ofBoolListLE]
  by_cases hk : k < 8
  · simp [rawBits, hk]
  · simp [rawBits, hk, BitVec.getLsbD_of_ge b k (by omega)]

/-- DeriveCode stores the bits of the path code, bit 0 first. -/
theorem deriveCode_of_walkUp {N : List Node} {b : Byte} {path : List Bool}
    (hwalk : walkUp N 255 b.toNat 0 0 = ((BitVec.ofBoolListLE path).toNat, path.length)) :
    deriveCode N b.toNat =
      (BitVec.ofNat 9 (BitVec.ofBoolListLE (pathCode path b)).toNat, BitVec.ofNat 4 (pathCode path b).length) := by
  have htrue : (BitVec.ofBoolListLE (true :: path)).toNat = (BitVec.ofBoolListLE path).toNat <<< 1 ||| 1 :=
    (BitVec.toNat_concat _ true).trans (shiftLeft_one_or_toNat _ true).symm
  have hfalse : (BitVec.ofBoolListLE (false :: rawBits b)).toNat = b.toNat <<< 1 := by
    rw [Nat.shiftLeft_eq, ← toNat_ofBoolListLE_rawBits]
    exact BitVec.toNat_concat _ _
  simp only [deriveCode, hwalk, pathCode]
  by_cases hlen : path.length ≤ 7
  · rw [if_neg (by omega), if_pos hlen, htrue, List.length_cons]
  · rw [if_pos (by omega), if_neg hlen, hfalse, List.length_cons, length_rawBits]

/-- A code read back in emission order is the bit list it was stored from. -/
theorem codeOf_eq {node : Nat → Node} {b : Byte} {bits : List Bool} (hle : bits.length ≤ 9)
    (hlen : (node b.toNat).codeLength = BitVec.ofNat 4 bits.length)
    (hbits : (node b.toNat).codeBits = BitVec.ofNat 9 (BitVec.ofBoolListLE bits).toNat) : codeOf node b = bits := by
  have hlen' : codeLengthOf node b = bits.length := by
    rw [codeLengthOf, hlen, BitVec.toNat_ofNat]
    omega
  apply List.ext_getElem
  · simp [codeOf, hlen']
  · intro k _ hk
    have hk9 : k < 9 := by omega
    simp [codeOf, codeBitsOf, hbits, BitVec.getLsbD_ofBoolListLE, hk, hk9]

/-- What BUILD stores as the code of a symbol, `40_build_tree.md` R128. -/
theorem builtNode_code (freq : Vector Word 256) (b : Byte) :
    ((builtNode freq b.toNat).codeBits, (builtNode freq b.toNat).codeLength) = deriveCode (buildNodes freq) b.toNat := by
  have hb : b.toNat < 256 := b.isLt
  rw [builtNode, buildNodes, nodeAt_assignCodes _ (by rw [length_buildTree]; omega), withCode, if_pos hb]
  simp only [deriveCode, walkUp_assignCodes]

/-- Every symbol's code is the path code of a path from the root to the symbol's leaf. -/
theorem exists_codeOf_eq_pathCode (freq : Vector Word 256) (b : Byte) :
    ∃ path, Descends (builtNode freq) 510 path b.toNat ∧ codeOf (builtNode freq) b = pathCode path b := by
  obtain ⟨path, hpath, hwalk⟩ := (builtTreeShape freq).exists_descends_walkUp_leaf b.isLt
  have hcode := (builtNode_code freq b).trans (deriveCode_of_walkUp hwalk)
  obtain ⟨hbits, hlen⟩ := Prod.mk.inj hcode
  exact ⟨path, hpath, codeOf_eq (length_pathCode_le path b) hlen hbits⟩

theorem rawBits_injective : Function.Injective rawBits := fun a b h =>
  BitVec.eq_of_toNat_eq (by rw [← toNat_ofBoolListLE_rawBits, h, toNat_ofBoolListLE_rawBits])

/-- Settles O30: the first bit tells a path from a raw byte, no path to a leaf starts another, and raw bytes have one length. -/
theorem codesArePrefixFree : Obligations.CodesArePrefixFree := by
  unfold Obligations.CodesArePrefixFree
  intro freq a b hne hprefix
  obtain ⟨path, hd, hcode⟩ := exists_codeOf_eq_pathCode freq a
  obtain ⟨path', hd', hcode'⟩ := exists_codeOf_eq_pathCode freq b
  rw [hcode, hcode', pathCode, pathCode] at hprefix
  split_ifs at hprefix <;> obtain ⟨hbit, htail⟩ := List.cons_prefix_cons.mp hprefix
  · exact hne (BitVec.eq_of_toNat_eq (hd.eq_of_isPrefix hd' htail))
  · cases hbit
  · cases hbit
  · exact hne (rawBits_injective (htail.eq_of_length (by simp)))

end Sys2Proof.Machine
end

section
/-! PROOF. One round of BUILD's rules said exactly, `40_build_tree.md` R121 to R126: Init node by node, the replacement rule, SelectPair as the
two smallest and as the index loops, and Merge. -/

namespace Sys2Proof.Machine

/-! ### Init and Merge -/

/-- Settles O23: a leaf below 256, a fresh internal node from there on. -/
theorem initWritesEveryNode : Obligations.InitWritesEveryNode := by
  unfold Obligations.InitWritesEveryNode
  intro freq
  refine ⟨length_initNodes freq, fun i _ => ?_⟩
  by_cases hi : i < 256
  · simp [nodeAt_initNodes_leaf freq hi, initLeaf, hi]
  · simp [nodeAt_initNodes_internal freq (Nat.le_of_not_lt hi), initInternal, hi]

/-- Settles O26: `nodeAt_mergeNodes` at node `k`, at the pair and at every other node. -/
theorem mergeJoinsThePair : Obligations.MergeJoinsThePair := by
  unfold Obligations.MergeJoinsThePair
  intro N k s1 s2 hsize _ hk h1 h2 _
  have hnode := nodeAt_mergeNodes (show k < N.length by omega) h1 h2
  refine ⟨by rw [length_mergeNodes, hsize], ?_, fun i hi => ?_, fun i hik hi1 hi2 => ?_⟩
  · rw [hnode, if_pos rfl]
  · rw [hnode, if_neg (by omega), if_pos hi]
  · rw [hnode, if_neg hik, if_neg (by omega)]

/-! ### The replacement rule -/

/-- Settles O24: the two tests of R124, each taken both ways. -/
theorem replaceableSlotRule : Obligations.ReplaceableSlotRule := by
  unfold Obligations.ReplaceableSlotRule
  intro s1 s2 c
  refine ⟨fun h hc => ?_, fun h hc => ?_, fun h hc => ?_, fun h hc => ?_⟩
  · simp [considerSlot, h, hc]
  · simp [considerSlot, h, BitVec.not_lt.mpr hc]
  · simp [considerSlot, BitVec.not_lt.mpr h, hc]
  · simp [considerSlot, BitVec.not_lt.mpr h, BitVec.not_lt.mpr hc]

/-- Slot `u` is settled by the pair `p`: it is in the pair, or neither of the pair is heavier. -/
def Settled (u : Slot) (p : Slot × Slot) : Prop :=
  u = p.1 ∨ u = p.2 ∨ (p.1.frequency ≤ u.frequency ∧ p.2.frequency ≤ u.frequency)

/-- A candidate settles itself and keeps what was settled: the slot that leaves the pair is the heavier one. -/
theorem settled_considerSlot {u c : Slot} {p : Slot × Slot} (h : Settled u p ∨ u = c) : Settled u (considerSlot p c) := by
  obtain ⟨s1, s2⟩ := p
  obtain ⟨first, keepFirst, second, keepSecond⟩ := replaceableSlotRule s1 s2 c
  simp only [Settled] at h ⊢
  by_cases hs : s2.frequency < s1.frequency
  · by_cases hc : c.frequency < s1.frequency
    · rw [first hs hc]
      grind
    · rw [keepFirst hs (BitVec.not_lt.mp hc)]
      grind
  · by_cases hc : c.frequency < s2.frequency
    · rw [second (BitVec.not_lt.mp hs) hc]
      grind
    · rw [keepSecond (BitVec.not_lt.mp hs) (BitVec.not_lt.mp hc)]
      grind

theorem settled_foldl_considerSlot {u : Slot} {cs : List Slot} {p : Slot × Slot} (h : Settled u p ∨ u ∈ cs) :
    Settled u (cs.foldl considerSlot p) := by
  induction cs generalizing p with
  | nil => exact h.resolve_right List.not_mem_nil
  | cons c cs ih =>
    rw [List.mem_cons, ← or_assoc] at h
    exact ih (h.imp_left settled_considerSlot)

/-! ### The opening pair -/

/-- The slot of node `i`. -/
def slotAt (N : List Node) (i : Nat) : Slot :=
  { index := i, frequency := (nodeAt N i).frequency }

/-- A candidate is the slot of its own node. -/
theorem eq_slotAt_of_mem_unattached {N : List Node} {k : Nat} (hk : k ≤ N.length) {s : Slot} (h : s ∈ unattached N k) :
    s = slotAt N s.index := by
  obtain ⟨_, _, hf⟩ := (mem_unattached N hk s).mp h
  rw [slotAt, ← hf]

theorem slotAt_mem_unattached {N : List Node} {k i : Nat} (hk : k ≤ N.length) (hi : i ∈ openNodes N k) :
    slotAt N i ∈ unattached N k :=
  have ⟨hlt, hopen⟩ := mem_openNodes.mp hi
  (mem_unattached N hk _).mpr ⟨hlt, hopen, rfl⟩

theorem two_le_card_openNodes {N : List Node} {k a b : Nat} (hab : a < b) (hb : b < k)
    (ha : (nodeAt N a).parentOffset = 0#8) (hb' : (nodeAt N b).parentOffset = 0#8) : 2 ≤ (openNodes N k).card :=
  Finset.one_lt_card.mpr
    ⟨a, mem_openNodes.mpr ⟨hab.trans hb, ha⟩, b, mem_openNodes.mpr ⟨hb, hb'⟩, hab.ne⟩

theorem exists_unattached_eq {N : List Node} {k : Nat} (hk : k ≤ N.length) (h : 2 ≤ (openNodes N k).card) :
    ∃ a b cs, unattached N k = a :: b :: cs := by
  rw [← length_unattached hk] at h
  match unattached N k, h with
  | a :: b :: cs, _ => exact ⟨a, b, cs, rfl⟩

theorem selectPair_of_unattached {N : List Node} {k : Nat} {a b : Slot} {cs : List Slot}
    (h : unattached N k = a :: b :: cs) :
    selectPair N k = some ((cs.foldl considerSlot (a, b)).1.index, (cs.foldl considerSlot (a, b)).2.index) := by
  simp only [selectPair, h]

/-! ### The two smallest -/

/-- Every open node's slot is settled by the chosen pair. -/
theorem settled_of_selectPair {N : List Node} {k s1 s2 : Nat} (hk : k ≤ N.length) (h : 2 ≤ (openNodes N k).card)
    (hsel : selectPair N k = some (s1, s2)) {u : Nat} (hu : u ∈ openNodes N k) :
    Settled (slotAt N u) (slotAt N s1, slotAt N s2) := by
  obtain ⟨a, b, cs, hcs⟩ := exists_unattached_eq hk h
  obtain ⟨rfl, rfl⟩ : _ = s1 ∧ _ = s2 := by simpa [selectPair_of_unattached hcs] using hsel
  have hslot : ∀ s ∈ a :: b :: cs, s = slotAt N s.index := fun s hs => eq_slotAt_of_mem_unattached hk (hcs ▸ hs)
  have hchosen := (foldl_considerSlot_subperm cs (a, b)).subset
  have hmem := hcs ▸ slotAt_mem_unattached hk hu
  rw [← hslot _ (hchosen (by simp)), ← hslot _ (hchosen (by simp))]
  rw [List.mem_cons, List.mem_cons, ← or_assoc] at hmem
  exact settled_foldl_considerSlot (hmem.imp_left (Or.imp_right Or.inl))

/-- Settles O25: SelectPair returns two open nodes, and its scan settles every other one. -/
theorem selectPairTakesTwoSmallest : Obligations.SelectPairTakesTwoSmallest := by
  unfold Obligations.SelectPairTakesTwoSmallest
  intro N k a b hk hab hb ha hb'
  have hcard := two_le_card_openNodes hab hb ha hb'
  obtain ⟨s1, s2, hsel, hne, h1, h2⟩ := selectPair_open hk hcard
  obtain ⟨hlt1, hopen1⟩ := mem_openNodes.mp h1
  obtain ⟨hlt2, hopen2⟩ := mem_openNodes.mp h2
  refine ⟨s1, s2, hsel, hne, hlt1, hlt2, hopen1, hopen2, fun u hu hopen hu1 hu2 => ?_⟩
  obtain heq | heq | hle := settled_of_selectPair hk hcard hsel (mem_openNodes.mpr ⟨hu, hopen⟩)
  · exact absurd (congrArg Slot.index heq) hu1
  · exact absurd (congrArg Slot.index heq) hu2
  · exact hle

/-! ### The index loops -/

/-- The candidates from index `i` on, in index order. -/
def candidatesFrom (N : List Node) (k i : Nat) : List Slot :=
  unattachedFrom i ((N.take k).drop i)

theorem candidatesFrom_zero (N : List Node) (k : Nat) : candidatesFrom N k 0 = unattached N k := rfl

theorem candidatesFrom_of_le {N : List Node} {k i : Nat} (hi : k ≤ i) : candidatesFrom N k i = [] := by
  rw [candidatesFrom, List.drop_eq_nil_of_le (by rw [List.length_take]; omega), unattachedFrom]

theorem candidatesFrom_of_lt {N : List Node} {k i : Nat} (hk : k ≤ N.length) (hi : i < k) :
    candidatesFrom N k i =
      if (nodeAt N i).parentOffset = 0#8 then slotAt N i :: candidatesFrom N k (i + 1) else candidatesFrom N k (i + 1) := by
  have hlt : i < N.length := by omega
  have hnode : (N.take k)[i]'(by rw [List.length_take]; omega) = nodeAt N i := by simp [nodeAt, hlt]
  rw [candidatesFrom, List.drop_eq_getElem_cons (by rw [List.length_take]; omega), hnode, unattachedFrom]
  rfl

/-- An opening scan stops at the first candidate, `40_build_tree.md` R123. -/
theorem openingScan_eq_index {N : List Node} {k left i : Nat} {c : Slot} {cs : List Slot} (hk : k ≤ N.length)
    (hleft : k ≤ i + left) (h : candidatesFrom N k i = c :: cs) :
    openingScan N left i = c.index ∧ cs = candidatesFrom N k (c.index + 1) := by
  induction left generalizing i with
  | zero => rw [candidatesFrom_of_le (by omega)] at h; cases h
  | succ left ih =>
    have hi : i < k := Nat.lt_of_not_le fun hi => by rw [candidatesFrom_of_le hi] at h; cases h
    rw [candidatesFrom_of_lt hk hi] at h
    rw [openingScan]
    split at h
    next hopen =>
      cases h
      exact ⟨if_neg (not_not_intro hopen), rfl⟩
    next hatt =>
      rw [if_pos hatt]
      exact ih (by omega) h

/-- The replacement scan folds `considerSlot` over the candidates, `40_build_tree.md` R124. -/
theorem replacementScan_eq_foldl {N : List Node} {k left i s1 s2 : Nat} (hk : k ≤ N.length) (hleft : k ≤ i + left)
    {p : Slot × Slot} (hp : p = (candidatesFrom N k i).foldl considerSlot (slotAt N s1, slotAt N s2)) :
    replacementScan N k left i s1 s2 = (p.1.index, p.2.index) := by
  induction left generalizing i s1 s2 with
  | zero => rw [hp, candidatesFrom_of_le (by omega)]; rfl
  | succ left ih =>
    rw [replacementScan]
    split
    next hi =>
      rw [candidatesFrom_of_lt hk hi] at hp
      split
      next hopen =>
        rw [if_pos hopen, List.foldl_cons] at hp
        obtain ⟨first, keepFirst, second, keepSecond⟩ := replaceableSlotRule (slotAt N s1) (slotAt N s2) (slotAt N i)
        split
        next hs =>
          split
          next hc => exact ih (by omega) (first hs hc ▸ hp)
          next hc => exact ih (by omega) (keepFirst hs (BitVec.not_lt.mp hc) ▸ hp)
        next hs =>
          split
          next hc => exact ih (by omega) (second (BitVec.not_lt.mp hs) hc ▸ hp)
          next hc => exact ih (by omega) (keepSecond (BitVec.not_lt.mp hs) (BitVec.not_lt.mp hc) ▸ hp)
      next hatt =>
        rw [if_neg hatt] at hp
        exact ih (by omega) hp
    next hi => rw [hp, candidatesFrom_of_le (Nat.le_of_not_lt hi)]; rfl

/-- Settles O59: the opening scans find the first two candidates, and the replacement scan folds over the rest. -/
theorem selectPairRunsTheScans : Obligations.SelectPairRunsTheScans := by
  unfold Obligations.SelectPairRunsTheScans
  intro N k a b hk hab hb ha hb'
  obtain ⟨c, d, cs, hcs⟩ := exists_unattached_eq hk (two_le_card_openNodes hab hb ha hb')
  have hslot : ∀ s ∈ c :: d :: cs, s = slotAt N s.index := fun s hs => eq_slotAt_of_mem_unattached hk (hcs ▸ hs)
  obtain ⟨hfirst, hrest⟩ := openingScan_eq_index (left := k) hk (by omega) ((candidatesFrom_zero N k).trans hcs)
  obtain ⟨hsecond, hlater⟩ := openingScan_eq_index (left := k) hk (by omega) hrest.symm
  rw [selectPair_of_unattached hcs, scanPair]
  simp only [hfirst, hsecond]
  rw [replacementScan_eq_foldl hk (by omega) rfl, ← hlater, ← hslot c (by simp), ← hslot d (by simp)]

end Sys2Proof.Machine
end

section
/-! PROOF. What BUILD keeps of each round, `40_build_tree.md` R122 and R128: later rounds and DeriveCode leave the children and weights of
every node already made, and the parent of every node already attached. -/

namespace Sys2Proof.Machine

/-! ### What later rounds keep -/

/-- `N'` has the nodes of `N` below `k`, but for codes and for parents given to open nodes. -/
structure KeepsBelow (k : Nat) (N N' : List Node) : Prop where
  leftChild : ∀ i, i < k → (nodeAt N' i).leftChild = (nodeAt N i).leftChild
  rightChild : ∀ i, i < k → (nodeAt N' i).rightChild = (nodeAt N i).rightChild
  frequency : ∀ i, i < k → (nodeAt N' i).frequency = (nodeAt N i).frequency
  attached : ∀ i, i < k → (nodeAt N i).parentOffset ≠ 0#8 → (nodeAt N' i).parentOffset = (nodeAt N i).parentOffset

namespace KeepsBelow

variable {k k' : Nat} {N N' N'' : List Node}

theorem refl (k : Nat) (N : List Node) : KeepsBelow k N N :=
  ⟨fun _ _ => rfl, fun _ _ => rfl, fun _ _ => rfl, fun _ _ _ => rfl⟩

theorem trans (h : KeepsBelow k N N') (h' : KeepsBelow k' N' N'') (hle : k ≤ k') : KeepsBelow k N N'' where
  leftChild i hi := (h'.leftChild i (by omega)).trans (h.leftChild i hi)
  rightChild i hi := (h'.rightChild i (by omega)).trans (h.rightChild i hi)
  frequency i hi := (h'.frequency i (by omega)).trans (h.frequency i hi)
  attached i hi hatt := by
    have hkept := h.attached i hi hatt
    rw [h'.attached i (by omega) (hkept ▸ hatt), hkept]

end KeepsBelow

/-- Merge writes node `k` and attaches two open nodes, `40_build_tree.md` R126. -/
theorem keepsBelow_mergeNodes {N : List Node} {k s1 s2 : Nat} (hk : k < N.length) (h1 : s1 ∈ openNodes N k)
    (h2 : s2 ∈ openNodes N k) : KeepsBelow k N (mergeNodes N k s1 s2) := by
  obtain ⟨hlt1, hopen1⟩ := mem_openNodes.mp h1
  obtain ⟨hlt2, hopen2⟩ := mem_openNodes.mp h2
  refine ⟨fun i hi => ?_, fun i hi => ?_, fun i hi => ?_, fun i hi hatt => ?_⟩
  · rw [leftChild_mergeNodes hk hlt1 hlt2, if_neg hi.ne]
  · rw [rightChild_mergeNodes hk hlt1 hlt2, if_neg hi.ne]
  · rw [frequency_mergeNodes hk hlt1 hlt2, if_neg hi.ne]
  · have hpair : ¬ (i = s1 ∨ i = s2) := by
      rintro (rfl | rfl)
      · exact hatt hopen1
      · exact hatt hopen2
    rw [parentOffset_mergeNodes hk hlt1 hlt2, if_neg hpair]

theorem keepsBelow_assignCodes (k : Nat) (N : List Node) : KeepsBelow k N (assignCodes N) := by
  obtain ⟨hl, hr, hp, hf⟩ : _ ∧ _ ∧ _ ∧ _ := by simpa only [forall_and] using nodeAt_assignCodes_tree N
  exact ⟨fun i _ => hl i, fun i _ => hr i, fun i _ => hf i, fun i _ _ => hp i⟩

/-! ### The rounds -/

theorem lt_length_mergeRounds (freq : Vector Word 256) {r : Nat} (hr : r < 255) :
    256 + r < (mergeRounds (initNodes freq) r).length := by
  rw [length_mergeRounds, length_initNodes]
  omega

/-- The pair of round `r` and the array it leaves. -/
theorem exists_mergeRounds_succ (freq : Vector Word 256) {r : Nat} (hr : r < 255) :
    ∃ s1 s2, selectPair (mergeRounds (initNodes freq) r) (256 + r) = some (s1, s2) ∧ s1 ≠ s2 ∧
      s1 ∈ openNodes (mergeRounds (initNodes freq) r) (256 + r) ∧
      s2 ∈ openNodes (mergeRounds (initNodes freq) r) (256 + r) ∧
      mergeRounds (initNodes freq) (r + 1) = mergeNodes (mergeRounds (initNodes freq) r) (256 + r) s1 s2 := by
  have hforest := forest_mergeRounds freq hr.le
  have hcount := hforest.count
  obtain ⟨s1, s2, hsel, hne, h1, h2⟩ := selectPair_open (lt_length_mergeRounds freq hr).le (by omega)
  exact ⟨s1, s2, hsel, hne, h1, h2, by rw [mergeRounds, mergeRound, hsel]⟩

theorem keepsBelow_mergeRounds (freq : Vector Word 256) {r r' : Nat} (hle : r ≤ r') (hr' : r' ≤ 255) :
    KeepsBelow (256 + r) (mergeRounds (initNodes freq) r) (mergeRounds (initNodes freq) r') := by
  induction r', hle using Nat.le_induction with
  | base => exact .refl _ _
  | succ n hn ih =>
    obtain ⟨s1, s2, _, _, h1, h2, hround⟩ := exists_mergeRounds_succ freq hr'
    rw [hround]
    exact (ih (by omega)).trans (keepsBelow_mergeNodes (lt_length_mergeRounds freq hr') h1 h2) (by omega)

/-- BUILD keeps what each round leaves. -/
theorem keepsBelow_buildNodes (freq : Vector Word 256) {r : Nat} (hr : r ≤ 255) :
    KeepsBelow (256 + r) (mergeRounds (initNodes freq) r) (buildNodes freq) :=
  (keepsBelow_mergeRounds freq hr le_rfl).trans (keepsBelow_assignCodes (256 + r) _) le_rfl

/-- Two open nodes weigh no more than the whole table, so their sum is exact, `40_build_tree.md` R127. -/
theorem Forest.toNat_add_frequency {freq : Vector Word 256} {N : List Node} {k s1 s2 : Nat} (h : Forest freq N k)
    (hne : s1 ≠ s2) (h1 : s1 ∈ openNodes N k) (h2 : s2 ∈ openNodes N k) :
    ((nodeAt N s1).frequency + (nodeAt N s2).frequency).toNat =
      (nodeAt N s1).frequency.toNat + (nodeAt N s2).frequency.toNat := by
  have hle : ∑ i ∈ {s1, s2}, (nodeAt N i).frequency.toNat ≤ tableWeight freq :=
    h.weight ▸ Finset.sum_le_sum_of_subset (Finset.insert_subset h1 (Finset.singleton_subset_iff.mpr h2))
  rw [Finset.sum_pair hne] at hle
  exact BitVec.toNat_add_of_lt (hle.trans_lt (tableWeight_lt freq))

/-- A merged node's parent field does not read as open, `10_state.md` R24. -/
theorem ofNat_parentOffset_ne_zero {k : Nat} (hk : 256 ≤ k) (hk' : k ≤ 510) : BitVec.ofNat 8 (k - 255) ≠ 0#8 := fun h => by
  have hparent := toNat_parentOffset hk hk'
  rw [h, BitVec.toNat_ofNat] at hparent
  omega

/-- Settles O60: the round merges the pair, the weights are exact, and BUILD keeps both. -/
theorem buildMergesTheSelectedPairs : Obligations.BuildMergesTheSelectedPairs := by
  unfold Obligations.BuildMergesTheSelectedPairs
  rintro freq r _ hr rfl
  obtain ⟨s1, s2, hsel, hne, h1, h2, hround⟩ := exists_mergeRounds_succ freq hr
  obtain ⟨hlt1, _⟩ := mem_openNodes.mp h1
  obtain ⟨hlt2, _⟩ := mem_openNodes.mp h2
  have hbefore := keepsBelow_buildNodes freq hr.le
  have hafter := keepsBelow_buildNodes freq (r := r + 1) hr
  rw [hround] at hafter
  have hlen := lt_length_mergeRounds freq hr
  have hparent : ∀ i, i = s1 ∨ i = s2 → (builtNode freq i).parentOffset.toNat + 255 = 256 + r := fun i hi => by
    have hset := parentOffset_mergeNodes hlen hlt1 hlt2 i
    rw [if_pos hi] at hset
    have hatt := ofNat_parentOffset_ne_zero (k := 256 + r) (by omega) (by omega)
    have hkept := hafter.attached i (by omega) (by rwa [hset])
    rw [builtNode, hkept, hset, toNat_parentOffset (by omega) (by omega)]
  refine ⟨s1, s2, hsel, hround, ?_, ?_, hparent s1 (.inl rfl), hparent s2 (.inr rfl), ?_, hbefore.frequency⟩
  · rw [builtNode, hafter.rightChild _ (by omega), rightChild_mergeNodes hlen hlt1 hlt2, if_pos rfl, BitVec.toNat_ofNat]
    omega
  · rw [builtNode, hafter.leftChild _ (by omega), leftChild_mergeNodes hlen hlt1 hlt2, if_pos rfl, BitVec.toNat_ofNat]
    omega
  · have hexact := (forest_mergeRounds freq hr.le).toNat_add_frequency hne h1 h2
    rw [builtNode, builtNode, builtNode, hafter.frequency _ (by omega), hbefore.frequency _ hlt1,
      hbefore.frequency _ hlt2, frequency_mergeNodes hlen hlt1 hlt2, if_pos rfl, hexact]

end Sys2Proof.Machine
end

section
/-! PROOF. `BUILD` as a command, `40_build_tree.md` R128: the exact next state, and the same `N` again after a reset. -/

namespace Sys2Proof.Machine

/-- Settles O22: with `BUILT` 0 BUILD is not refused, so it delivers the tree. -/
theorem buildWritesTheTree : Obligations.BuildWritesTheTree := by
  unfold Obligations.BuildWritesTheTree
  intro s hb
  obtain ⟨t, ht⟩ := exists_exec_eq_next .build s
  obtain ⟨hbuilt, _⟩ | ⟨_, rfl⟩ := execBuild_cases ht
  · rw [hb] at hbuilt
    cases hbuilt
  · exact ht

/-- A write of a command's word to `CMD` runs the command, `45_system.md` R185. -/
theorem step_write_encode {s : State} {i : Instr} {rest : List HostStep} (hb : s.busy = false)
    (hp : s.pending = .memWrite 0x00000 4 (encode i) :: rest) :
    step s = exec i { s with pending := rest, cmd := encode i } := by
  have hl : locate 0x00000 4 = .ok (.register 0) := locate_register (by decide) (by decide)
  simp only [step_memWrite_of_locate hl hb hp, writePlace, writeCmd, decode_encode]

/-- Settles O31: reset keeps `FREQ` and clears `BUILT`, so BUILD makes `N` of the same table as before. -/
theorem rebuildAfterResetIsSame : Obligations.RebuildAfterResetIsSame := by
  unfold Obligations.RebuildAfterResetIsSame
  intro s hinv hbuilt
  have htree := hinv.tree
  rw [hbuilt, if_pos rfl] at htree
  exact ⟨_, (runSteps_succ (step_rst rfl) 1).trans (runSteps_succ
    ((step_write_encode (i := .build) rfl rfl).trans (buildWritesTheTree _ rfl)) 0), rfl, htree.symm⟩

end Sys2Proof.Machine
end

section
/-! PROOF. The code table, `41_code_table.md` R143 to R145: how long the paths to the leaves are, and what length and value the codes have. -/

namespace Sys2Proof.Machine

/-! ### The length of a path -/

theorem Descends.length_pos {node : Nat → Node} {n m : Nat} {path : List Bool} (hd : Descends node n path m) :
    0 < path.length := by
  cases hd <;> simp

/-- The children of an inner node have smaller indices, `10_state.md` R25 (b). -/
theorem TreeShape.childOf_lt {freq : Vector Word 256} {N : List Node} (h : TreeShape freq N) {n : Nat} (hlo : 256 ≤ n)
    (hhi : n ≤ 510) (bit : Bool) : childOf (nodeAt N n) bit < n := by
  obtain ⟨hleft, hright, _⟩ := h.internals n hlo hhi
  cases bit
  · exact hleft
  · exact hright

/-- Every branch of a path but the last leads to an inner node of smaller index, so no path is longer than there are inner nodes. -/
theorem TreeShape.length_le_of_descends {freq : Vector Word 256} {N : List Node} (h : TreeShape freq N) {n m : Nat}
    {path : List Bool} (hlo : 256 ≤ n) (hhi : n ≤ 510) (hd : Descends (nodeAt N) n path m) : path.length + 255 ≤ n := by
  induction hd with
  | last n bit _ =>
    rw [List.length_singleton]
    omega
  | down n bit path m hinner _ ih =>
    have hlt := h.childOf_lt hlo hhi bit
    rw [h.isLeaf_nodeAt (by omega), decide_eq_false_iff_not, not_lt] at hinner
    have hrest := ih hinner (by omega)
    rw [List.length_cons]
    omega

/-- Settles O29: the code is a path code, and a path from the root has from one to 255 branches. -/
theorem codesAreTreePaths : Obligations.CodesAreTreePaths := by
  unfold Obligations.CodesAreTreePaths
  intro freq b
  obtain ⟨path, hd, hcode⟩ := exists_codeOf_eq_pathCode freq b
  have hlen := (builtTreeShape freq).length_le_of_descends (by omega) le_rfl hd
  exact ⟨path, hd, hd.length_pos, by omega, hcode⟩

/-! ### The length and the value of a code -/

/-- The stored length and value of a symbol's code are those of a path code's bits, with nothing cut off by the fields' widths. -/
theorem exists_code_fields_eq (freq : Vector Word 256) (b : Byte) :
    ∃ path, Descends (builtNode freq) 510 path b.toNat ∧
      codeLengthOf (builtNode freq) b = (pathCode path b).length ∧
      (codeBitsOf (builtNode freq) b).toNat = (BitVec.ofBoolListLE (pathCode path b)).toNat := by
  obtain ⟨path, hd, hwalk⟩ := (builtTreeShape freq).exists_descends_walkUp_leaf b.isLt
  obtain ⟨hbits, hlen⟩ := Prod.mk.inj ((builtNode_code freq b).trans (deriveCode_of_walkUp hwalk))
  have hle := length_pathCode_le path b
  have hvalue : (BitVec.ofBoolListLE (pathCode path b)).toNat < 2 ^ 9 :=
    (BitVec.ofBoolListLE (pathCode path b)).isLt.trans_le (Nat.pow_le_pow_right two_pos hle)
  refine ⟨path, hd, ?_, ?_⟩
  · rw [codeLengthOf, hlen, BitVec.toNat_ofNat]
    omega
  · rw [codeBitsOf, hbits, BitVec.toNat_ofNat, Nat.mod_eq_of_lt hvalue]

/-- The first bit of a list is the lowest of its value. -/
theorem toNat_ofBoolListLE_cons (bit : Bool) (bits : List Bool) :
    (BitVec.ofBoolListLE (bit :: bits)).toNat = (BitVec.ofBoolListLE bits).toNat * 2 + bit.toNat :=
  BitVec.toNat_concat _ _

/-- Settles O28: both forms of a path code have the bounds, and the lowest bit tells them apart. -/
theorem codeTableBounds : Obligations.CodeTableBounds := by
  unfold Obligations.CodeTableBounds
  intro freq b
  obtain ⟨path, hd, hlen, hbits⟩ := exists_code_fields_eq freq b
  have hle := length_pathCode_le path b
  have hbound := (BitVec.ofBoolListLE (pathCode path b)).isLt
  rw [hlen, BitVec.getLsbD, hbits, Nat.testBit_zero, decide_eq_true_iff]
  by_cases hshort : path.length ≤ 7
  · have hform : pathCode path b = true :: path := if_pos hshort
    rw [hform] at hle hbound ⊢
    refine ⟨Nat.succ_le_succ hd.length_pos, hle, hbound, ?_⟩
    rw [toNat_ofBoolListLE_cons, List.length_cons, Bool.toNat_true]
    omega
  · have hform : pathCode path b = false :: rawBits b := if_neg hshort
    rw [hform] at hle hbound ⊢
    refine ⟨by simp, hle, hbound, ?_⟩
    rw [toNat_ofBoolListLE_cons, toNat_ofBoolListLE_rawBits, List.length_cons, length_rawBits, Bool.toNat_false]
    omega

end Sys2Proof.Machine
end

section
/-! PROOF. The bit codec, `42_bitcodec.md` R150 to R155: which bit each position holds after PutBits, and which bits GetByte8 takes. -/

namespace Sys2Proof.Machine

/-! ### The reader -/

/-- OR-ing one bit at each of the positions below `n` makes a byte of these bits. -/
theorem getLsbD_foldl_or_shiftLeft (f : Nat → Bool) (n : Nat) {k : Nat} (hk : k < 8) :
    ((List.range n).foldl (fun r j => r ||| ((BitVec.ofBool (f j)).setWidth 8 <<< j)) 0#8).getLsbD k =
      (decide (k < n) && f k) := by
  induction n with
  | zero => simp
  | succ n ih =>
    rw [List.range_succ, List.foldl_append, List.foldl_cons, List.foldl_nil, BitVec.getLsbD_or, ih]
    obtain hlt | rfl | hgt := lt_trichotomy k n
    · simp [hlt, Nat.lt_succ_of_lt hlt]
    · simp [hk]
    · have hne : k - n ≠ 0 := by omega
      simp [hne, hgt.not_gt, show ¬k < n + 1 by omega]

/-- The first bit read becomes bit 0, `42_bitcodec.md` R154. -/
theorem getLsbD_getByte8 (B : List Byte) (q : Nat) {k : Nat} (hk : k < 8) :
    (getByte8 B q).getLsbD k = getBit B (q + k) := by
  rw [getByte8, getLsbD_foldl_or_shiftLeft (fun j => getBit B (q + j)) 8 hk, decide_eq_true hk, Bool.true_and]

/-- A byte is what GetByte8 reads when its bits are the buffer's next eight. -/
theorem getByte8_eq_of_getBit {B : List Byte} {q : Nat} {x : Byte} (h : ∀ k, k < 8 → getBit B (q + k) = x.getLsbD k) :
    getByte8 B q = x := by
  apply BitVec.eq_of_getLsbD_eq
  intro k hk
  rw [getLsbD_getByte8 B q hk, h k hk]

/-- The byte and the bit in it that a position names, `42_bitcodec.md` R153. -/
theorem getBit_of_eq {B : List Byte} {q j i : Nat} (hi : i < 8) (hq : q = 8 * j + i) :
    getBit B q = (B.getD j 0#8).getLsbD i := by
  rw [getBit, show q / 8 = j by omega, show q % 8 = i by omega]

/-- Settles O33: each bit read lies in the byte at `q / 8`, or, past that byte's end, in the next one. -/
theorem getByte8TakesEightBits : Obligations.GetByte8TakesEightBits := by
  unfold Obligations.GetByte8TakesEightBits
  intro B q
  refine ⟨fun k hk => getLsbD_getByte8 B q hk, fun haligned => ?_, fun hmisaligned => ?_⟩
  · exact getByte8_eq_of_getBit fun k hk => getBit_of_eq hk (by omega)
  · apply getByte8_eq_of_getBit
    intro k hk
    rw [BitVec.getLsbD_or, BitVec.getLsbD_ushiftRight, BitVec.getLsbD_shiftLeft]
    by_cases hfirst : q % 8 + k < 8
    · rw [getBit_of_eq hfirst (j := q / 8) (by omega)]
      simp [show k < 8 - q % 8 by omega]
    · rw [getBit_of_eq (j := q / 8 + 1) (i := k - (8 - q % 8)) (by omega) (by omega),
        BitVec.getLsbD_of_ge _ (q % 8 + k) (by omega)]
      simp [hk, show ¬k < 8 - q % 8 by omega]

/-! ### The writer -/

/-- Whatever the buffer holds, PutBits ORs `v[k]` in at `off + k` for `k` below `n` and leaves every other bit alone. -/
theorem getBit_putBits (B : List Byte) (off : Nat) (v : BitVec 9) (n q : Nat) :
    getBit (putBits B off v n) q = (getBit B q || decide (off ≤ q ∧ q < off + n) && v.getLsbD (q - off)) := by
  induction n with
  | zero => simp [putBits, show ¬(off ≤ q ∧ q < off) by omega]
  | succ n ih =>
    rw [putBits, getBit_putBit]
    split
    · next hq =>
      subst hq
      rw [ih]
      simp
    · next hq =>
      have hrange : (off ≤ q ∧ q < off + n) ↔ (off ≤ q ∧ q < off + (n + 1)) := by omega
      rw [ih, decide_eq_decide.mpr hrange]

/-- What is written onto zero bits reads back. -/
theorem getBit_putBits_add {B : List Byte} {off : Nat} (hzero : ∀ q, off ≤ q → getBit B q = false) (v : BitVec 9)
    {n k : Nat} (hk : k < n) : getBit (putBits B off v n) (off + k) = v.getLsbD k := by
  rw [getBit_putBits, hzero _ (Nat.le_add_right off k)]
  simp [hk]

/-- Outside the group PutBits changes no bit. -/
theorem getBit_putBits_of_outside (B : List Byte) {off : Nat} (v : BitVec 9) {n q : Nat}
    (h : q < off ∨ off + n ≤ q) : getBit (putBits B off v n) q = getBit B q := by
  rw [getBit_putBits, decide_eq_false (by omega), Bool.false_and, Bool.or_false]

/-- PutBits of at least one bit makes the buffer just long enough, also where it starts beyond the buffer. -/
theorem length_putBits_succ (B : List Byte) (off : Nat) (v : BitVec 9) (n : Nat) :
    (putBits B off v (n + 1)).length = max B.length ((off + (n + 1) + 7) / 8) := by
  induction n with
  | zero =>
    rw [putBits, putBit_length, putBits]
    omega
  | succ n ih =>
    rw [putBits, putBit_length, ih]
    omega

/-- Settles O32: each clause is PutBits at one kind of position, and an escape code is a 0 bit before its byte's bits. -/
theorem putBitsReadsBack : Obligations.PutBitsReadsBack := by
  unfold Obligations.PutBitsReadsBack
  constructor
  · intro B off v n hzero
    refine ⟨fun k => getBit_putBits_add hzero v, fun q hq => getBit_putBits_of_outside B v (.inl hq), fun q hq => ?_,
      fun hlen => ?_⟩
    · rw [getBit_putBits_of_outside B v (.inr hq), hzero q (by omega)]
    · cases n with
      | zero => exact putBits_length B off v 0 (by omega)
      | succ n => exact length_putBits_succ B off v n
  · intro B off i hzero
    constructor
    · exact (getBit_putBits_add hzero _ (k := 0) (by omega)).trans (by simp)
    · apply getByte8_eq_of_getBit
      intro k hk
      rw [Nat.add_assoc, getBit_putBits_add hzero _ (by omega), BitVec.getLsbD_shiftLeft, BitVec.getLsbD_setWidth]
      simp [show 1 + k < 9 by omega, show k < 9 by omega]

end Sys2Proof.Machine
end

section
/-! PROOF. The compressed form, `43_compress.md` R165, R166: the bits COMPRESS packs are the codes of the payload one after the other, and
byte 0 is the header alone. -/

namespace Sys2Proof.Machine

/-! ### The packed bits -/

/-- Packing touches no bit outside the codes it writes. -/
theorem getBit_packCodes_of_outside (node : Nat → Node) (p : List Byte) (B : List Byte) {off q : Nat}
    (h : q < off ∨ off + totalBits node p ≤ q) : getBit (packCodes node B off p) q = getBit B q := by
  induction p generalizing B off with
  | nil => rfl
  | cons b p ih =>
    simp only [totalBits, List.map_cons, List.sum_cons] at h ih
    rw [packCodes, ih _ (by omega), getBit_putBits_of_outside _ _ (by omega)]

/-- Packed onto zero bits, the codes read back one after the other. -/
theorem map_getBit_packCodes (node : Nat → Node) (p : List Byte) {B : List Byte} {off : Nat}
    (hzero : ∀ q, off ≤ q → getBit B q = false) :
    (List.range (totalBits node p)).map (fun c => getBit (packCodes node B off p) (off + c)) =
      p.flatMap (codeOf node) := by
  induction p generalizing B off with
  | nil => rfl
  | cons b p ih =>
    have hsplit : totalBits node (b :: p) = codeLengthOf node b + totalBits node p := by simp [totalBits]
    rw [hsplit, List.range_add, List.map_append, List.map_map, List.flatMap_cons, packCodes]
    congr 1
    · apply List.map_congr_left
      intro c hc
      rw [List.mem_range] at hc
      rw [getBit_packCodes_of_outside _ _ _ (.inl (by omega)), getBit_putBits_add hzero _ hc]
    · rw [← ih (B := putBits B off (codeBitsOf node b) (codeLengthOf node b)) (off := off + codeLengthOf node b)
        fun q hq => by rw [getBit_putBits_of_outside _ _ (.inr hq), hzero q (by omega)]]
      apply List.map_congr_left
      intro c _
      rw [Function.comp_apply, Nat.add_assoc]

/-! ### The header -/

theorem padCount_eq (n : Nat) : padCount n = (8 - n % 8) % 8 := by
  simp only [padCount]
  split <;> omega

/-- The header of a placeholder 0x00, `43_compress.md` R166. -/
theorem finishHeader_zero (n : Nat) : finishHeader n 0#8 = 0x80#8 ||| BitVec.ofNat 8 ((8 - n % 8) % 8) := by
  rw [finishHeader, padCount_eq, BitVec.zero_and, BitVec.zero_or, BitVec.or_comm]

/-- A header's low four bits are its padding count. -/
theorem toNat_header_and_low {pad : Nat} (h : pad < 8) : ((0x80#8 ||| BitVec.ofNat 8 pad) &&& 0x0F#8).toNat = pad := by
  decide +revert

/-- Changing byte 0 changes no bit of the later bytes. -/
theorem getBit_modify_zero (B : List Byte) (f : Byte → Byte) {q : Nat} (h : 8 ≤ q) : getBit (B.modify 0 f) q = getBit B q := by
  have hne : 0 ≠ q / 8 := by omega
  simp [getBit, hne]

/-! ### The whole buffer -/

theorem getBit_placeholder (q : Nat) : getBit [0x00#8] q = false := by
  unfold getBit
  cases q / 8 <;> simp

/-- The codes start at bit 8, so the placeholder is still 0 when the header is made. -/
theorem compressedBuffer_zero (node : Nat → Node) (p : List Byte) :
    (compressedBuffer node p)[0]? = some (0x80#8 ||| BitVec.ofNat 8 ((8 - totalBits node p % 8) % 8)) := by
  have hbyte : (packCodes node [0x00#8] 8 p).getD 0 0#8 = 0#8 := by
    obtain ⟨_, haligned, _⟩ := getByte8TakesEightBits (packCodes node [0x00#8] 8 p) 0
    rw [← haligned rfl]
    refine getByte8_eq_of_getBit fun k hk => ?_
    rw [getBit_packCodes_of_outside _ _ _ (.inl (by omega)), getBit_placeholder, BitVec.getLsbD_zero]
  have hlen : 0 < (packCodes node [0x00#8] 8 p).length := by
    rw [packCodes_length _ _ _ _ (by simp)]
    simp
  rw [List.getD_eq_getElem _ _ hlen] at hbyte
  simp [compressedBuffer, hlen, hbyte, finishHeader_zero]

/-- `30_encoding.md` R93, R95: the stream is the payload's codes. -/
theorem streamBits_compressedBuffer (node : Nat → Node) (p : List Byte) :
    streamBits (compressedBuffer node p) (totalBits node p) = p.flatMap (codeOf node) := by
  rw [← map_getBit_packCodes node p (B := [0x00#8]) (off := 8) fun q _ => getBit_placeholder q]
  exact List.map_congr_left fun c _ => getBit_modify_zero _ _ (by omega)

/-- The padding is zero, `30_encoding.md` R91. -/
theorem getBit_compressedBuffer_padding (node : Nat → Node) (p : List Byte) {q : Nat} (h : 8 + totalBits node p ≤ q) :
    getBit (compressedBuffer node p) q = false := by
  rw [compressedBuffer, getBit_modify_zero _ _ (by omega), getBit_packCodes_of_outside _ _ _ (.inr h), getBit_placeholder]

end Sys2Proof.Machine
end

section
/-! PROOF. `COMPRESS` as a command, `43_compress.md` R160 to R168: which payloads it refuses, which it passes
through, and what it reports of the others. -/

namespace Sys2Proof.Machine

/-! ### What a delivered result reads as -/

section Deliver

variable (s : State) {bs : List Byte} {n : Nat} (p : Bool)

theorem State.toNat_outLen_deliver (h : bs.length < 2 ^ 18) : (s.deliver bs n p).outLen.toNat = bs.length := by
  rw [deliver_outLen, BitVec.toNat_ofNat, Nat.mod_eq_of_lt h]

theorem State.toNat_bitLen_deliver (h : n < 2 ^ 20) : (s.deliver bs n p).bitLen.toNat = n := by
  rw [deliver_bitLen, BitVec.toNat_ofNat, Nat.mod_eq_of_lt h]

theorem State.obufByte_deliver {j : Nat} {b : Byte} (h : bs[j]? = some b) : (s.deliver bs n p).obufByte j = b := by
  rw [obufByte, deliver_obuf, Memory.get?_holdResult, h, Option.getD_some]

end Deliver

/-- `BITLEN` can hold the bit count of every input. -/
theorem totalBits_inputBytes_lt (s : State) : totalBits s.node s.inputBytes < 2 ^ 20 := by
  have hle := totalBits_le s.node s.inputBytes
  have hlen := s.inLen.isLt
  rw [State.inputBytes_length] at hle
  omega

/-! ### The paths of the command -/

/-- The test of `43_compress.md` R161 is on byte 0's high bit. -/
theorem firstByteHigh_inputBytes (s : State) :
    firstByteHigh s.inputBytes = true ↔ 0 < s.inLen.toNat ∧ 0x80 ≤ (s.ibufByte 0).toNat := by
  rw [State.inputBytes]
  cases s.inLen.toNat with
  | zero => simp [firstByteHigh]
  | succ n =>
    rw [List.range_succ_eq_map, List.map_cons, firstByteHigh, ← BitVec.msb_eq_getLsbD_last, BitVec.msb_eq_decide]
    simp

theorem firstByteHigh_eq_false {s : State} (h : s.inLen.toNat = 0 ∨ (s.ibufByte 0).toNat < 0x80) :
    firstByteHigh s.inputBytes = false := by
  rw [← Bool.not_eq_true, firstByteHigh_inputBytes]
  omega

section Paths

variable {s : State} (hb : s.built = true)

include hb

theorem exec_compress_refused (hlen : 0 < s.inLen.toNat) (hbyte : 0x80 ≤ (s.ibufByte 0).toNat) :
    exec .compress s = .next (s.beginCommand.raise .firstByteHighBit) := by
  simp [exec, execCompress, hb, (firstByteHigh_inputBytes s).mpr ⟨hlen, hbyte⟩]

section Admissible

variable (hadm : s.inLen.toNat = 0 ∨ (s.ibufByte 0).toNat < 0x80)

include hadm

theorem exec_compress_passThrough (hlen : s.inLen.toNat ≤ encodedBytes s.node s.inputBytes) :
    exec .compress s = .next (s.beginCommand.deliver s.inputBytes (totalBits s.node s.inputBytes) true) := by
  simp [exec, execCompress, hb, firstByteHigh_eq_false hadm, hlen]

theorem exec_compress_packed (hlen : encodedBytes s.node s.inputBytes < s.inLen.toNat) :
    exec .compress s =
      .next (s.beginCommand.deliver (compressedBuffer s.node s.inputBytes) (totalBits s.node s.inputBytes) false) := by
  simp [exec, execCompress, hb, firstByteHigh_eq_false hadm, hlen]

end Admissible

end Paths

/-- Only the compressed path ends with neither an error nor `PASS`. -/
theorem packed_of_exec_compress {s t : State} (h : exec .compress s = .next t) (hcode : t.errcode = 0#16)
    (hpass : t.pass = false) :
    encodedBytes s.node s.inputBytes < s.inLen.toNat ∧
      t = s.beginCommand.deliver (compressedBuffer s.node s.inputBytes) (totalBits s.node s.inputBytes) false := by
  obtain ⟨_, rfl⟩ | ⟨_, _, rfl⟩ | ⟨_, _, _, rfl⟩ | ⟨_, _, hlen, rfl⟩ := execCompress_cases h
  · cases hcode
  · cases hcode
  · cases hpass
  · exact ⟨hlen, rfl⟩

/-- `OUT_LEN` can hold the length of a compressed form that is shorter than its payload. -/
theorem length_compressedBuffer_lt {s : State} (h : encodedBytes s.node s.inputBytes < s.inLen.toNat) :
    (compressedBuffer s.node s.inputBytes).length < 2 ^ 18 := by
  have hin := s.inLen.isLt
  rw [compressedBuffer_length]
  omega

/-- `OUT_LEN` of the compressed path is the length COMPRESS compared the payload's with. -/
theorem toNat_outLen_compressedBuffer {s : State} (hlen : encodedBytes s.node s.inputBytes < s.inLen.toNat) (n : Nat) (p : Bool) :
    (s.beginCommand.deliver (compressedBuffer s.node s.inputBytes) n p).outLen.toNat = encodedBytes s.node s.inputBytes := by
  rw [State.toNat_outLen_deliver _ _ (length_compressedBuffer_lt hlen), compressedBuffer_length]

/-! ### The statements -/

/-- Settles O34: the test is on byte 0 alone, and both paths behind it deliver a result. -/
theorem compressRefusesHighFirstByte : Obligations.CompressRefusesHighFirstByte := by
  unfold Obligations.CompressRefusesHighFirstByte
  intro s hb
  refine ⟨exec_compress_refused hb, fun hadm => ?_⟩
  obtain hlen | hlen := le_or_gt s.inLen.toNat (encodedBytes s.node s.inputBytes)
  · exact ⟨_, exec_compress_passThrough hb hadm hlen, rfl⟩
  · exact ⟨_, exec_compress_packed hb hadm hlen, rfl⟩

/-- Settles O35: the pass-through path delivers the input bytes. -/
theorem compressPassesThrough : Obligations.CompressPassesThrough := by
  unfold Obligations.CompressPassesThrough
  intro s hb hadm hlen
  have hsize : s.inputBytes.length < 2 ^ 18 := by
    have hin := s.inLen.isLt
    rw [State.inputBytes_length]
    omega
  refine ⟨_, exec_compress_passThrough hb hadm hlen, rfl, rfl, ?_, State.toNat_bitLen_deliver _ _ (totalBits_inputBytes_lt s),
    State.outputBytes_deliver _ hsize _ _⟩
  rw [State.toNat_outLen_deliver _ _ hsize, State.inputBytes_length]

/-- Settles O36: the compressed path delivers the compressed buffer, whose header, stream and padding are known. -/
theorem compressPacksTheCodes : Obligations.CompressPacksTheCodes := by
  unfold Obligations.CompressPacksTheCodes
  intro s hb hadm hlen
  refine ⟨_, exec_compress_packed hb hadm hlen, rfl, rfl, toNat_outLen_compressedBuffer hlen _ _,
    State.toNat_bitLen_deliver _ _ (totalBits_inputBytes_lt s), by simp [State.outputBytes],
    State.obufByte_deliver _ _ (compressedBuffer_zero _ _), ?_⟩
  rw [State.outputBytes_deliver _ (length_compressedBuffer_lt hlen)]
  exact ⟨streamBits_compressedBuffer _ _, fun q => getBit_compressedBuffer_padding _ _⟩

/-- Settles O37: an error leaves no output, the pass-through path the payload, and the compressed path is taken only when it is shorter. -/
theorem compressNeverGrows : Obligations.CompressNeverGrows := by
  unfold Obligations.CompressNeverGrows
  intro s t h
  constructor
  · obtain ⟨_, rfl⟩ | ⟨_, _, rfl⟩ | ⟨_, _, _, rfl⟩ | ⟨_, _, hlen, rfl⟩ := execCompress_cases h
    · exact Nat.zero_le _
    · exact Nat.zero_le _
    · rw [State.deliver_outLen, BitVec.toNat_ofNat, State.inputBytes_length]
      exact Nat.mod_le _ _
    · rw [toNat_outLen_compressedBuffer hlen]
      exact hlen.le
  · intro hcode hpass
    obtain ⟨hlen, rfl⟩ := packed_of_exec_compress h hcode hpass
    rwa [toNat_outLen_compressedBuffer hlen]

/-- Settles O38: the padding count fills the last byte of the stream. -/
theorem compressAccountsForEveryBit : Obligations.CompressAccountsForEveryBit := by
  unfold Obligations.CompressAccountsForEveryBit
  intro s t h hcode hpass
  obtain ⟨hlen, rfl⟩ := packed_of_exec_compress h hcode hpass
  rw [toNat_outLen_compressedBuffer hlen, State.toNat_bitLen_deliver _ _ (totalBits_inputBytes_lt s),
    State.obufByte_deliver _ _ (compressedBuffer_zero _ _), toNat_header_and_low (Nat.mod_lt _ (by decide)), encodedBytes]
  omega

/-! ### Over a built tree -/

/-- After a BUILD the node window reads the tree of `FREQ`. -/
theorem State.Inv.node_eq_builtNode {s : State} (h : s.Inv) (hb : s.built = true) {i : Nat} (hi : i < 511) :
    s.node i = builtNode s.freq i := by
  have htree := h.tree
  rw [if_pos hb] at htree
  have hi' : i < (buildNodes s.freq).length := by rwa [(builtTreeShape s.freq).size]
  simp [State.node, htree, builtNode, nodeAt, hi']

/-- So it has the lengths of the code table, `41_code_table.md` R145 (a). -/
theorem State.Inv.codeLengthOf_bounds {s : State} (h : s.Inv) (hb : s.built = true) (b : Byte) :
    2 ≤ codeLengthOf s.node b ∧ codeLengthOf s.node b ≤ 9 := by
  have hnode : codeLengthOf s.node b = codeLengthOf (builtNode s.freq) b := by
    have hlt := b.isLt
    rw [codeLengthOf, codeLengthOf, h.node_eq_builtNode hb (by omega)]
  obtain ⟨hlo, hhi, _⟩ := codeTableBounds s.freq b
  rw [hnode]
  exact ⟨hlo, hhi⟩

theorem mul_length_le_totalBits {node : Nat → Node} {p : List Byte} {m : Nat} (h : ∀ b ∈ p, m ≤ codeLengthOf node b) :
    m * p.length ≤ totalBits node p := by
  have hsum := List.card_nsmul_le_sum (p.map (codeLengthOf node)) m (by simpa using h)
  rwa [List.length_map, smul_eq_mul, Nat.mul_comm] at hsum

theorem totalBits_le_mul_length {node : Nat → Node} {p : List Byte} {m : Nat} (h : ∀ b ∈ p, codeLengthOf node b ≤ m) :
    totalBits node p ≤ m * p.length := by
  have hsum := List.sum_le_card_nsmul (p.map (codeLengthOf node)) m (by simpa using h)
  rwa [List.length_map, smul_eq_mul, Nat.mul_comm] at hsum

/-- Settles O39: the bounds are the code lengths' summed up, and with them neither kind of payload gets shorter. -/
theorem shortAndEscapedPassThrough : Obligations.ShortAndEscapedPassThrough := by
  unfold Obligations.ShortAndEscapedPassThrough
  intro s hinv hb
  have hlo := mul_length_le_totalBits (p := s.inputBytes) fun b _ => (hinv.codeLengthOf_bounds hb b).1
  have hhi := totalBits_le_mul_length (p := s.inputBytes) fun b _ => (hinv.codeLengthOf_bounds hb b).2
  rw [State.inputBytes_length] at hlo hhi
  refine ⟨hlo, hhi, fun hadm hkind => ?_⟩
  have hlen : s.inLen.toNat ≤ (totalBits s.node s.inputBytes + 7) / 8 + 1 := by
    obtain hshort | hescaped := hkind
    · omega
    · have hnine := mul_length_le_totalBits fun b hmem => (hescaped b hmem).ge
      rw [State.inputBytes_length] at hnine
      omega
  obtain ⟨t, ht, hcode, hpass, _, _, hout⟩ := compressPassesThrough s hb hadm hlen
  exact ⟨t, ht, hcode, hpass, hout⟩

end Sys2Proof.Machine
end

section
/-! PROOF. The decode loop of `44_decompress.md` R175 to R177 against the stream grammar of `30_encoding.md` R95, R97: from a cursor on,
DecodeSymbol and DecodeEscape take exactly one symbol's form off the significant bits, and the loop takes one after the other. -/

namespace Sys2Proof.Machine

/-! ### The significant bits from a cursor on -/

/-- The stream bits at positions `c` to `len - 1`. -/
def bitsFrom (D : List Byte) (len c : Nat) : List Bool :=
  (List.range' c (len - c)).map fun q => getBit D (8 + q)

theorem bitsFrom_zero (D : List Byte) (len : Nat) : bitsFrom D len 0 = streamBits D len := by
  rw [bitsFrom, streamBits, List.range_eq_range', Nat.sub_zero]

@[simp] theorem length_bitsFrom (D : List Byte) (len c : Nat) : (bitsFrom D len c).length = len - c := by
  simp [bitsFrom]

theorem bitsFrom_of_le (D : List Byte) {len c : Nat} (h : len ≤ c) : bitsFrom D len c = [] := by
  rw [← List.length_eq_zero_iff, length_bitsFrom]
  omega

/-- The next `n` bits, where there are that many. -/
theorem bitsFrom_add (D : List Byte) {len c n : Nat} (h : c + n ≤ len) :
    bitsFrom D len c = (List.range n).map (fun k => getBit D (8 + (c + k))) ++ bitsFrom D len (c + n) := by
  rw [bitsFrom, show len - c = n + (len - (c + n)) by omega, ← List.range'_append_1, List.map_append,
    List.range'_eq_map_range, List.map_map]
  rfl

theorem bitsFrom_of_lt (D : List Byte) {len c : Nat} (h : c < len) :
    bitsFrom D len c = getBit D (8 + c) :: bitsFrom D len (c + 1) :=
  bitsFrom_add D (n := 1) h

section Cursor

variable {D : List Byte} {len c : Nat}

/-- A next bit is one the cursor may read, `44_decompress.md` R176. -/
theorem cursor_of_bitsFrom_eq_cons {bit : Bool} {bits : List Bool} (h : bitsFrom D len c = bit :: bits) :
    c < len ∧ getBit D (8 + c) = bit ∧ bitsFrom D len (c + 1) = bits := by
  have hc : c < len := by
    have hlen := congrArg List.length h
    rw [length_bitsFrom, List.length_cons] at hlen
    omega
  rw [bitsFrom_of_lt D hc, List.cons.injEq] at h
  exact ⟨hc, h⟩

/-- Taking bits off the front moves the cursor by their number. -/
theorem bitsFrom_of_eq_append {xs ys : List Bool} (h : bitsFrom D len c = xs ++ ys) :
    bitsFrom D len (c + xs.length) = ys := by
  induction xs generalizing c with
  | nil => exact h
  | cons x xs ih =>
    obtain ⟨_, _, hrest⟩ := cursor_of_bitsFrom_eq_cons h
    rw [List.length_cons, ← Nat.succ_add_eq_add_succ]
    exact ih hrest

/-! ### One symbol -/

/-- One symbol's form on the stream, `30_encoding.md` R95, R97: a leading 1 and a path from the root to a leaf, or a leading 0 and eight
raw bits. -/
inductive SymbolForm (node : Nat → Node) : List Bool → Byte → Prop where
  | huffman (path : List Bool) (m : Nat) (h : Descends node 510 path m) : SymbolForm node (true :: path) (BitVec.ofNat 8 m)
  | escape (b : Byte) : SymbolForm node (false :: rawBits b) b

variable {node : Nat → Node}

/-- One round of DecodeSymbol, where a bit is left. -/
theorem decodeSymbol_succ {bit : Bool} {bits : List Bool} (h : bitsFrom D len c = bit :: bits) (fuel n : Nat) :
    decodeSymbol node D len (fuel + 1) n c =
      if isLeaf (node (childOf (node n) bit)) then .ok (BitVec.ofNat 8 (childOf (node n) bit), c + 1)
      else decodeSymbol node D len fuel (childOf (node n) bit) (c + 1) := by
  obtain ⟨hc, rfl, _⟩ := cursor_of_bitsFrom_eq_cons h
  rw [decodeSymbol, if_neg hc.not_ge]

/-- DecodeSymbol follows a path to its leaf. -/
theorem decodeSymbol_of_descends {fuel n m : Nat} {path rest : List Bool} (hd : Descends node n path m)
    (hbits : bitsFrom D len c = path ++ rest) (hfuel : len ≤ c + fuel) :
    decodeSymbol node D len fuel n c = .ok (BitVec.ofNat 8 m, c + path.length) := by
  induction hd generalizing c fuel with
  | last n bit hleaf =>
    obtain ⟨hc, _, _⟩ := cursor_of_bitsFrom_eq_cons hbits
    obtain ⟨fuel, rfl⟩ := Nat.exists_eq_add_of_lt (show 0 < fuel by omega)
    rw [Nat.zero_add, decodeSymbol_succ hbits, if_pos hleaf, List.length_singleton]
  | down n bit path m hinner _ ih =>
    obtain ⟨hc, _, hrest⟩ := cursor_of_bitsFrom_eq_cons hbits
    obtain ⟨fuel, rfl⟩ := Nat.exists_eq_add_of_lt (show 0 < fuel by omega)
    rw [Nat.zero_add, decodeSymbol_succ hbits, hinner, if_neg Bool.false_ne_true, ih hrest (by omega), List.length_cons,
      Nat.succ_add_eq_add_succ]

/-- What DecodeSymbol decodes is a path to a leaf. -/
theorem descends_of_decodeSymbol {fuel n c' : Nat} {v : Byte} (h : decodeSymbol node D len fuel n c = .ok (v, c')) :
    ∃ path m, Descends node n path m ∧ v = BitVec.ofNat 8 m ∧ bitsFrom D len c = path ++ bitsFrom D len c' := by
  induction fuel generalizing n c with
  | zero => cases h
  | succ fuel ih =>
    have hc : c < len := by
      have hmoved := decodeSymbol_cursor h
      omega
    rw [decodeSymbol_succ (bitsFrom_of_lt D hc)] at h
    rw [bitsFrom_of_lt D hc]
    split at h
    · next hleaf =>
      cases h
      exact ⟨_, _, .last n _ hleaf, rfl, rfl⟩
    · next hinner =>
      obtain ⟨path, m, hd, hv, hbits⟩ := ih h
      exact ⟨_, m, .down n _ path m (eq_false_of_ne_true hinner) hd, hv, by rw [hbits, List.cons_append]⟩

theorem eq_treeWalkOverrun_of_decodeSymbol {fuel n : Nat} {e : CommandError}
    (h : decodeSymbol node D len fuel n c = .error e) : e = .treeWalkOverrun := by
  induction fuel generalizing n c with
  | zero => cases h; rfl
  | succ fuel ih =>
    simp only [decodeSymbol] at h
    split at h
    · cases h; rfl
    · split at h
      · cases h
      · exact ih h

/-- The next eight bits are the byte GetByte8 reads. -/
theorem bitsFrom_eq_rawBits_append (h : c + 8 ≤ len) :
    bitsFrom D len c = rawBits (getByte8 D (8 + c)) ++ bitsFrom D len (c + 8) := by
  rw [bitsFrom_add D h, rawBits]
  congr 1
  apply List.map_congr_left
  intro k hk
  rw [getLsbD_getByte8 _ _ (List.mem_range.mp hk), Nat.add_assoc]

/-- `44_decompress.md` R177: DecodeEscape takes eight raw bits. -/
theorem decodeEscape_of_rawBits {b : Byte} {rest : List Bool} (h : bitsFrom D len c = rawBits b ++ rest) :
    decodeEscape D len c = .ok (b, c + 8) := by
  have hc : c + 8 ≤ len := by
    have hlen := congrArg List.length h
    rw [length_bitsFrom, List.length_append, length_rawBits] at hlen
    omega
  rw [bitsFrom_eq_rawBits_append hc] at h
  obtain ⟨hraw, _⟩ := List.append_inj h (by simp)
  rw [decodeEscape, if_neg (by omega), rawBits_injective hraw]

/-- One symbol of the loop, `44_decompress.md` R175. -/
theorem decodeOne_of_symbolForm {form rest : List Bool} {v : Byte} (hs : SymbolForm node form v)
    (hbits : bitsFrom D len c = form ++ rest) : decodeOne node D len c = .ok (v, c + form.length) := by
  cases hs with
  | huffman path m hd =>
    obtain ⟨hc, hbit, hrest⟩ := cursor_of_bitsFrom_eq_cons hbits
    rw [decodeOne, if_pos hbit, decodeSymbol_of_descends hd hrest (by omega), List.length_cons, Nat.succ_add_eq_add_succ]
  | escape =>
    obtain ⟨_, hbit, hrest⟩ := cursor_of_bitsFrom_eq_cons hbits
    rw [decodeOne, hbit, if_neg Bool.false_ne_true, decodeEscape_of_rawBits hrest, List.length_cons, length_rawBits]

theorem symbolForm_of_decodeOne {c' : Nat} {v : Byte} (h : decodeOne node D len c = .ok (v, c')) :
    ∃ form, SymbolForm node form v ∧ bitsFrom D len c = form ++ bitsFrom D len c' := by
  have hc : c < len := by
    have hmoved := decodeOne_cursor h
    omega
  rw [bitsFrom_of_lt D hc]
  rw [decodeOne] at h
  split at h
  · next hbit =>
    obtain ⟨path, m, hd, rfl, hbits⟩ := descends_of_decodeSymbol h
    exact ⟨_, .huffman path m hd, by rw [hbit, hbits, List.cons_append]⟩
  · next hbit =>
    rw [decodeEscape] at h
    split at h
    · cases h
    · next hfits =>
      cases h
      exact ⟨_, .escape _, by
        rw [eq_false_of_ne_true hbit, bitsFrom_eq_rawBits_append (by omega), List.cons_append]⟩

/-- `44_decompress.md` R176: after a leading 1, no leaf within the significant bits. -/
theorem decodeOne_treeWalkOverrun {tail : List Bool} (hbits : bitsFrom D len c = true :: tail)
    (hno : ∀ path m, path.IsPrefix tail → ¬ Descends node 510 path m) :
    decodeOne node D len c = .error .treeWalkOverrun := by
  obtain ⟨_, hbit, hrest⟩ := cursor_of_bitsFrom_eq_cons hbits
  rw [decodeOne, if_pos hbit]
  cases h : decodeSymbol node D len len 510 (c + 1) with
  | error e => rw [eq_treeWalkOverrun_of_decodeSymbol h]
  | ok r =>
    obtain ⟨path, m, hd, _, hpath⟩ := descends_of_decodeSymbol h
    rw [hrest] at hpath
    exact absurd hd (hno path m ⟨_, hpath.symm⟩)

/-- `44_decompress.md` R177: after a leading 0, fewer than eight bits. -/
theorem decodeOne_escapeOverrun {tail : List Bool} (hbits : bitsFrom D len c = false :: tail) (hshort : tail.length < 8) :
    decodeOne node D len c = .error .escapeOverrun := by
  obtain ⟨_, hbit, hrest⟩ := cursor_of_bitsFrom_eq_cons hbits
  rw [← hrest, length_bitsFrom] at hshort
  rw [decodeOne, hbit, if_neg Bool.false_ne_true, decodeEscape, if_pos (by omega)]

/-- The loop's two errors, `44_decompress.md` R176, R177. -/
theorem decodeOne_error {e : CommandError} (h : decodeOne node D len c = .error e) :
    e = .treeWalkOverrun ∨ e = .escapeOverrun := by
  rw [decodeOne] at h
  split at h
  · exact .inl (eq_treeWalkOverrun_of_decodeSymbol h)
  · rw [decodeEscape] at h
    split at h <;> cases h
    exact .inr rfl

/-! ### The grammar, one symbol at a time -/

theorem SymbolForm.parses_append {form bits : List Bool} {v : Byte} {out : List Byte} (hs : SymbolForm node form v)
    (hp : Parses node bits out) : Parses node (form ++ bits) (v :: out) := by
  cases hs with
  | huffman path m hd => exact .huffman path m bits out hd hp
  | escape => exact .escape v bits out hp

theorem Parses.exists_symbolForm {bits : List Bool} {v : Byte} {out : List Byte} (hp : Parses node bits (v :: out)) :
    ∃ form rest, SymbolForm node form v ∧ bits = form ++ rest ∧ Parses node rest out := by
  cases hp with
  | huffman path m bits _ hd hp => exact ⟨_, bits, .huffman path m hd, rfl, hp⟩
  | escape _ bits _ hp => exact ⟨_, bits, .escape v, rfl, hp⟩

/-! ### The loop -/

theorem decodeLoop_of_le (h : len ≤ c) (fuel : Nat) : decodeLoop node D len fuel c = .ok [] := by
  cases fuel with
  | zero => rfl
  | succ fuel => rw [decodeLoop, if_neg h.not_gt]

theorem decodeLoop_succ_of_ok {v : Byte} {c' : Nat} (h : decodeOne node D len c = .ok (v, c')) (fuel : Nat) :
    decodeLoop node D len (fuel + 1) c = (decodeLoop node D len fuel c').map (v :: ·) := by
  have hc : c < len := by
    have hmoved := decodeOne_cursor h
    omega
  simp only [decodeLoop, if_pos hc, h]
  cases decodeLoop node D len fuel c' <;> rfl

theorem decodeLoop_succ_of_error {e : CommandError} (hc : c < len) (h : decodeOne node D len c = .error e) (fuel : Nat) :
    decodeLoop node D len (fuel + 1) c = .error e := by
  simp only [decodeLoop, if_pos hc, h]

/-- The loop goes through symbols that parse and carries on behind them, with rounds enough left. -/
theorem decodeLoop_of_parses {fuel : Nat} {good rest : List Bool} {out : List Byte} (hp : Parses node good out)
    (hbits : bitsFrom D len c = good ++ rest) (hfuel : len ≤ c + fuel) :
    ∃ fuel', len ≤ c + good.length + fuel' ∧
      decodeLoop node D len fuel c = (decodeLoop node D len fuel' (c + good.length)).map (out ++ ·) := by
  induction out generalizing c fuel good with
  | nil =>
    cases hp
    refine ⟨fuel, hfuel, ?_⟩
    rw [List.length_nil, Nat.add_zero]
    cases decodeLoop node D len fuel c <;> rfl
  | cons v out ih =>
    obtain ⟨form, bits, hs, rfl, hpbits⟩ := hp.exists_symbolForm
    rw [List.append_assoc] at hbits
    have hone := decodeOne_of_symbolForm hs hbits
    have hmoved := decodeOne_cursor hone
    obtain ⟨fuel, rfl⟩ := Nat.exists_eq_add_of_lt (show 0 < fuel by omega)
    obtain ⟨fuel', hfuel', hloop⟩ := ih (fuel := fuel) hpbits (bitsFrom_of_eq_append hbits) (by omega)
    rw [List.length_append, ← Nat.add_assoc]
    refine ⟨fuel', hfuel', ?_⟩
    rw [Nat.zero_add, decodeLoop_succ_of_ok hone, hloop]
    cases decodeLoop node D len fuel' (c + form.length + bits.length) <;> rfl

/-- What the loop gives out is parsed from the bits it went through. -/
theorem parses_of_decodeLoop {fuel : Nat} {out : List Byte} (h : decodeLoop node D len fuel c = .ok out)
    (hfuel : len ≤ c + fuel) : Parses node (bitsFrom D len c) out := by
  induction fuel generalizing c out with
  | zero =>
    cases h
    rw [bitsFrom_of_le D (by omega)]
    exact .done
  | succ fuel ih =>
    by_cases hc : c < len
    · cases hone : decodeOne node D len c with
      | error e => rw [decodeLoop_succ_of_error hc hone] at h; cases h
      | ok r =>
        obtain ⟨v, c'⟩ := r
        obtain ⟨form, hs, hbits⟩ := symbolForm_of_decodeOne hone
        have hmoved := decodeOne_cursor hone
        rw [decodeLoop_succ_of_ok hone] at h
        cases hloop : decodeLoop node D len fuel c' with
        | error e => rw [hloop] at h; cases h
        | ok vs =>
          rw [hloop] at h
          cases h
          rw [hbits]
          exact hs.parses_append (ih hloop (by omega))
    · rw [decodeLoop_of_le (by omega)] at h
      cases h
      rw [bitsFrom_of_le D (by omega)]
      exact .done

theorem decodeLoop_error {fuel : Nat} {e : CommandError} (h : decodeLoop node D len fuel c = .error e) :
    e = .treeWalkOverrun ∨ e = .escapeOverrun := by
  induction fuel generalizing c with
  | zero => cases h
  | succ fuel ih =>
    by_cases hc : c < len
    · cases hone : decodeOne node D len c with
      | error e' =>
        rw [decodeLoop_succ_of_error hc hone] at h
        cases h
        exact decodeOne_error hone
      | ok r =>
        rw [decodeLoop_succ_of_ok hone] at h
        cases hloop : decodeLoop node D len fuel r.2 with
        | error e' =>
          rw [hloop] at h
          cases h
          exact ih hloop
        | ok vs => rw [hloop] at h; cases h
    · rw [decodeLoop_of_le (by omega)] at h
      cases h

end Cursor

/-! ### The whole stream -/

/-- Settles O43: the loop goes through symbols that parse, and what it gives out was parsed. -/
theorem decodeStreamParsesSymbols : Obligations.DecodeStreamParsesSymbols := by
  unfold Obligations.DecodeStreamParsesSymbols
  intro node D len out
  rw [decodeStream, ← bitsFrom_zero]
  constructor
  · intro h
    exact parses_of_decodeLoop h (by omega)
  · intro hp
    have hlen : (bitsFrom D len 0).length = len := length_bitsFrom D len 0
    obtain ⟨fuel', _, hloop⟩ := decodeLoop_of_parses hp (rest := []) (List.append_nil _).symm (Nat.le_add_left len 0)
    rw [hloop, hlen, decodeLoop_of_le (by omega), Except.map, List.append_nil]

/-- A symbol that fails after symbols that parse ends the loop with its error, `60_exceptions.md` R207. -/
theorem decodeStream_of_defect {node : Nat → Node} {D : List Byte} {len : Nat} {good tail : List Bool} {out : List Byte}
    {bit : Bool} {e : CommandError} (hp : Parses node good out) (hbits : streamBits D len = good ++ bit :: tail)
    (hone : ∀ c, bitsFrom D len c = bit :: tail → decodeOne node D len c = .error e) :
    decodeStream node D len = .error e := by
  rw [← bitsFrom_zero] at hbits
  have hrest := bitsFrom_of_eq_append hbits
  obtain ⟨hc, _, _⟩ := cursor_of_bitsFrom_eq_cons hrest
  obtain ⟨fuel', hfuel', hloop⟩ := decodeLoop_of_parses hp hbits (Nat.le_add_left len 0)
  obtain ⟨fuel', rfl⟩ := Nat.exists_eq_add_of_lt (show 0 < fuel' by omega)
  rw [decodeStream, hloop, Nat.zero_add fuel', decodeLoop_succ_of_error hc (hone _ hrest), Except.map]

end Sys2Proof.Machine
end

section
/-! PROOF. `DECOMPRESS` as a command, `44_decompress.md` R170 to R181: the empty input, the pass-through path, the padding test, and what
it reports of a stream. -/

namespace Sys2Proof.Machine

/-! ### The header byte and the input -/

/-- `PAD` is the low four bits, `30_encoding.md` R92. -/
theorem headerPad_eq_mod (b : Byte) : headerPad b = b.toNat % 16 := by
  simp [headerPad]

theorem State.exists_inputBytes_eq_cons {s : State} (h : 0 < s.inLen.toNat) :
    ∃ rest, s.inputBytes = s.ibufByte 0 :: rest ∧ rest.length + 1 = s.inLen.toNat := by
  obtain ⟨n, hn⟩ := Nat.exists_eq_add_of_lt h
  rw [Nat.zero_add] at hn
  exact ⟨_, by rw [State.inputBytes, hn, List.range_succ_eq_map, List.map_cons], by simp [hn]⟩

/-- The first byte of an input is `IBUF[0]`. -/
theorem State.inLen_ibufByte_of_inputBytes {s : State} {b : Byte} {rest : List Byte} (h : s.inputBytes = b :: rest) :
    s.inLen.toNat = rest.length + 1 ∧ s.ibufByte 0 = b := by
  have hlen := s.inputBytes_length
  rw [h, List.length_cons] at hlen
  obtain ⟨rest', hcons, _⟩ := s.exists_inputBytes_eq_cons (by omega)
  rw [h, List.cons.injEq] at hcons
  exact ⟨hlen.symm, hcons.1.symm⟩

/-- `OUT_LEN` can hold the length of every input. -/
theorem State.length_inputBytes_lt (s : State) : s.inputBytes.length < 2 ^ 18 := by
  have hin := s.inLen.isLt
  rw [State.inputBytes_length]
  omega

/-! ### The paths of the command -/

theorem exec_decompress_notBuilt {s : State} (hb : s.built = false) :
    exec .decompress s = .next (s.beginCommand.raise .notBuilt) := by
  simp [exec, execDecompress, hb]

section Paths

variable {s : State} (hb : s.built = true)

include hb

theorem exec_decompress_empty (hlen : s.inLen.toNat = 0) :
    exec .decompress s = .next (s.beginCommand.raise .emptyInput) := by
  have hinput : s.inputBytes = [] := by rw [← List.length_eq_zero_iff, State.inputBytes_length, hlen]
  simp [exec, execDecompress, hb, hinput]

section Nonempty

variable (hlen : 0 < s.inLen.toNat)

include hlen

theorem exec_decompress_passThrough (hflag : headerFlag (s.ibufByte 0) = false) :
    exec .decompress s = .next (s.beginCommand.deliver s.inputBytes 0 true) := by
  obtain ⟨rest, hinput, _⟩ := s.exists_inputBytes_eq_cons hlen
  simp [exec, execDecompress, hb, hinput, hflag]

theorem exec_decompress_paddingExceedsBits (hflag : headerFlag (s.ibufByte 0) = true)
    (hpad : 8 * (s.inLen.toNat - 1) < headerPad (s.ibufByte 0)) :
    exec .decompress s = .next (s.beginCommand.raise .paddingExceedsBits) := by
  obtain ⟨rest, hinput, hrest⟩ := s.exists_inputBytes_eq_cons hlen
  have hexceeds : rest.length * 8 < headerPad (s.ibufByte 0) := by omega
  simp [exec, execDecompress, hb, hinput, hflag, hexceeds]

end Nonempty

/-- On the compressed path the command is the decode loop: its error, or its symbols. -/
theorem exec_decompress_of_stream {len : Nat} (hs : s.HoldsStream len) :
    (∀ e, decodeStream s.node s.inputBytes len = .error e → exec .decompress s = .next (s.beginCommand.raise e)) ∧
      ∀ out, decodeStream s.node s.inputBytes len = .ok out →
        exec .decompress s = .next (s.beginCommand.deliver out len false) := by
  obtain ⟨hlen, hflag, hpad, rfl⟩ := hs
  obtain ⟨rest, hinput, hrest⟩ := s.exists_inputBytes_eq_cons hlen
  have hfits : ¬ rest.length * 8 < headerPad (s.ibufByte 0) := by omega
  have hbits : bitLength (s.ibufByte 0 :: rest) (headerPad (s.ibufByte 0)) =
      8 * (s.inLen.toNat - 1) - headerPad (s.ibufByte 0) := by
    rw [bitLength, List.length_cons]
    omega
  rw [← hbits, hinput]
  constructor
  · intro e hd
    simp [exec, execDecompress, hb, hinput, hflag, hfits, hd]
  · intro out hd
    simp [exec, execDecompress, hb, hinput, hflag, hfits, hd]

end Paths

/-- `BITLEN` can hold the bits of every stream, and `OUT_LEN` the bytes they decode to. -/
theorem State.HoldsStream.size_bounds {s : State} {len : Nat} (hs : s.HoldsStream len) {out : List Byte}
    (h : decodeStream s.node s.inputBytes len = .ok out) :
    len < 2 ^ 20 ∧ out.length < 2 ^ 18 ∧ 2 * out.length ≤ len := by
  obtain ⟨_, _, _, hlen⟩ := hs
  have hin := s.inLen.isLt
  have hout := decodeLoop_length h (Nat.zero_le _)
  omega

/-! ### The statements -/

/-- Settles O40: the input of length 0 is refused before any byte is looked at. -/
theorem decompressRefusesEmpty : Obligations.DecompressRefusesEmpty := by
  unfold Obligations.DecompressRefusesEmpty
  intro s hb hlen
  exact exec_decompress_empty hb (by rw [hlen]; rfl)

/-- Settles O41: the flag test stands behind the test of `BUILT` and before everything that reads on. -/
theorem decompressPassesThrough : Obligations.DecompressPassesThrough := by
  unfold Obligations.DecompressPassesThrough
  intro s hlen hflag
  constructor
  · intro hb
    have hsize := s.length_inputBytes_lt
    refine ⟨_, exec_decompress_passThrough hb hlen hflag, rfl, rfl, rfl, ?_, State.outputBytes_deliver _ hsize _ _⟩
    rw [State.toNat_outLen_deliver _ _ hsize, State.inputBytes_length]
  · intro hb
    exact ⟨_, exec_decompress_notBuilt hb, rfl⟩

/-- Settles O42: a padding count that fits makes the input a stream, and the decode loop's own errors are others. -/
theorem decompressChecksPadding : Obligations.DecompressChecksPadding := by
  unfold Obligations.DecompressChecksPadding
  intro s hb hlen hflag
  rw [← headerPad_eq_mod]
  refine ⟨exec_decompress_paddingExceedsBits hb hlen hflag, fun hpad => ?_⟩
  have hs : s.HoldsStream (8 * (s.inLen.toNat - 1) - headerPad (s.ibufByte 0)) := ⟨hlen, hflag, hpad, rfl⟩
  obtain ⟨hraise, hdeliver⟩ := exec_decompress_of_stream hb hs
  cases hd : decodeStream s.node s.inputBytes (8 * (s.inLen.toNat - 1) - headerPad (s.ibufByte 0)) with
  | error e =>
    have hcode : e.code ≠ 0x0202#16 ∧ e.code ≠ 0#16 := by
      obtain rfl | rfl := decodeLoop_error hd <;> decide
    obtain ⟨hother, hfailed⟩ := hcode
    exact ⟨_, hraise e hd, hother, fun hzero => absurd hzero hfailed⟩
  | ok out =>
    obtain ⟨hbits, _, _⟩ := hs.size_bounds hd
    have hcode : 0#16 ≠ 0x0202#16 := by decide
    exact ⟨_, hdeliver out hd, hcode, fun _ => ⟨rfl, State.toNat_bitLen_deliver _ _ hbits⟩⟩

/-- Settles O44: the decode loop gives out the symbols that parse (O43), and the command delivers them. -/
theorem decompressDecodesStream : Obligations.DecompressDecodesStream := by
  unfold Obligations.DecompressDecodesStream
  intro s len out hb hs hp
  have hd := (decodeStreamParsesSymbols s.node s.inputBytes len out).mpr hp
  obtain ⟨_, hdeliver⟩ := exec_decompress_of_stream hb hs
  obtain ⟨hbits, hsize, _⟩ := hs.size_bounds hd
  exact ⟨_, hdeliver out hd, rfl, rfl, State.toNat_outLen_deliver _ _ hsize, State.toNat_bitLen_deliver _ _ hbits,
    State.outputBytes_deliver _ hsize _ _⟩

/-- Settles O45: the loop passes the symbols that parse, and the next one fails by its first bit and what is left behind it. -/
theorem firstStreamDefectReported : Obligations.FirstStreamDefectReported := by
  unfold Obligations.FirstStreamDefectReported
  intro s len good tail out hb hs hp
  obtain ⟨hraise, _⟩ := exec_decompress_of_stream hb hs
  constructor
  · intro hbits hno
    exact hraise _ (decodeStream_of_defect hp hbits fun _ hrest => decodeOne_treeWalkOverrun hrest hno)
  · intro hbits hshort
    exact hraise _ (decodeStream_of_defect hp hbits fun _ hrest => decodeOne_escapeOverrun hrest hshort)

/-- Settles O46: an error leaves zeros, and every decoded symbol took at least two bits. -/
theorem decompressOutputBound : Obligations.DecompressOutputBound := by
  unfold Obligations.DecompressOutputBound
  intro s t h hpass
  obtain ⟨_, rfl⟩ | ⟨_, _, rfl⟩ | ⟨b, rest, _, hinput, hpath⟩ := execDecompress_cases h
  · exact ⟨le_rfl, Nat.zero_le _⟩
  · exact ⟨le_rfl, Nat.zero_le _⟩
  obtain ⟨_, rfl⟩ | ⟨_, _, rfl⟩ | ⟨hflag, hpad, ⟨e, _, rfl⟩ | ⟨out, hd, rfl⟩⟩ := hpath
  · cases hpass
  · exact ⟨le_rfl, Nat.zero_le _⟩
  · exact ⟨le_rfl, Nat.zero_le _⟩
  · obtain ⟨hlen, rfl⟩ := State.inLen_ibufByte_of_inputBytes hinput
    have hs : s.HoldsStream (8 * rest.length - headerPad (s.ibufByte 0)) :=
      ⟨by omega, hflag, by omega, by rw [hlen, Nat.add_sub_cancel]⟩
    obtain ⟨hbits, hsize, hle⟩ := hs.size_bounds hd
    rw [State.toNat_outLen_deliver _ _ hsize, State.toNat_bitLen_deliver _ _ hbits, hlen]
    exact ⟨hle, by omega⟩

end Sys2Proof.Machine
end

section
/-! PROOF. `DECOMPRESS` inverts `COMPRESS`, `44_decompress.md` R182: over a built tree every code is one symbol of the stream grammar, so the
stream COMPRESS packs parses as the payload. -/

namespace Sys2Proof.Machine

/-! ### The codes are symbols of the grammar -/

/-- A path in the tree is one in every node array with the same 511 nodes, since children have smaller indices. -/
theorem TreeShape.descends_congr {freq : Vector Word 256} {N : List Node} (h : TreeShape freq N) {node : Nat → Node}
    (hnode : ∀ i, i < 511 → node i = nodeAt N i) {n m : Nat} {path : List Bool} (hlo : 256 ≤ n) (hhi : n ≤ 510)
    (hd : Descends (nodeAt N) n path m) : Descends node n path m := by
  induction hd with
  | last n bit hleaf =>
    have hlt := h.childOf_lt hlo hhi bit
    rw [← hnode _ (by omega), ← hnode n (by omega)] at hleaf
    rw [← hnode n (by omega)]
    exact .last n bit hleaf
  | down n bit path m hinner _ ih =>
    have hlt := h.childOf_lt hlo hhi bit
    have hchild : 256 ≤ childOf (nodeAt N n) bit := by
      rwa [h.isLeaf_nodeAt (by omega), decide_eq_false_iff_not, not_lt] at hinner
    have hrest := ih hchild (by omega)
    rw [← hnode _ (by omega)] at hinner
    rw [← hnode n (by omega)] at hinner hrest
    exact .down n bit path m hinner hrest

section Built

variable {s : State} (hinv : s.Inv) (hb : s.built = true)

include hinv hb

theorem State.Inv.codeOf_eq_builtNode (b : Byte) : codeOf s.node b = codeOf (builtNode s.freq) b := by
  have hlt := b.isLt
  simp only [codeOf, codeLengthOf, codeBitsOf, hinv.node_eq_builtNode hb (show b.toNat < 511 by omega)]

/-- Every symbol's code has one of the two forms DECOMPRESS reads, `30_encoding.md` R97. -/
theorem State.Inv.symbolForm_codeOf (b : Byte) : SymbolForm s.node (codeOf s.node b) b := by
  obtain ⟨path, hd, hcode⟩ := exists_codeOf_eq_pathCode s.freq b
  rw [hinv.codeOf_eq_builtNode hb, hcode, pathCode]
  split
  · have hpath : Descends s.node 510 path b.toNat :=
      (builtTreeShape s.freq).descends_congr (fun i hi => hinv.node_eq_builtNode hb hi) (by omega) le_rfl hd
    have hform := SymbolForm.huffman path b.toNat hpath
    rwa [BitVec.ofNat_toNat, BitVec.setWidth_eq] at hform
  · exact .escape b

theorem State.Inv.parses_flatMap_codeOf (p : List Byte) : Parses s.node (p.flatMap (codeOf s.node)) p := by
  induction p with
  | nil => exact .done
  | cons b p ih => exact (hinv.symbolForm_codeOf hb b).parses_append ih

end Built

/-! ### The header of a compressed form -/

theorem headerFlag_compressed {pad : Nat} (h : pad < 8) : headerFlag (0x80#8 ||| BitVec.ofNat 8 pad) = true := by
  decide +revert

theorem headerPad_compressed {pad : Nat} (h : pad < 8) : headerPad (0x80#8 ||| BitVec.ofNat 8 pad) = pad := by
  decide +revert

/-- A compressed form is a stream of as many bits as the codes have, `43_compress.md` R168. -/
theorem State.holdsStream_of_compressedBuffer {u : State} {node : Nat → Node} {p : List Byte}
    (hinput : u.inputBytes = compressedBuffer node p) : u.HoldsStream (totalBits node p) := by
  have hpad : (8 - totalBits node p % 8) % 8 < 8 := Nat.mod_lt _ (by decide)
  have hhead := compressedBuffer_zero node p
  have hlen : u.inLen.toNat = encodedBytes node p := by
    rw [← u.inputBytes_length, hinput, compressedBuffer_length]
  rw [encodedBytes] at hlen
  rw [← hinput] at hhead
  obtain ⟨rest, hcons, _⟩ := u.exists_inputBytes_eq_cons (by omega)
  rw [hcons, List.getElem?_cons_zero, Option.some.injEq] at hhead
  unfold State.HoldsStream
  rw [hhead, headerFlag_compressed hpad, headerPad_compressed hpad]
  exact ⟨by omega, rfl, by omega, by omega⟩

/-- Settles O47: a payload passed through has a first byte below 0x80 and passes through again; a compressed one is a stream that parses as
the payload. -/
theorem decompressInvertsCompress : Obligations.DecompressInvertsCompress := by
  unfold Obligations.DecompressInvertsCompress
  intro s t u hinv hb hlen h hcode hub hnodes hinput
  obtain ⟨_, rfl⟩ | ⟨_, _, rfl⟩ | ⟨_, hfirst, _, rfl⟩ | ⟨_, _, hshorter, rfl⟩ := execCompress_cases h
  · cases hcode
  · cases hcode
  · rw [State.outputBytes_deliver _ s.length_inputBytes_lt] at hinput
    obtain ⟨rest, hcons, _⟩ := s.exists_inputBytes_eq_cons hlen
    rw [hcons, firstByteHigh] at hfirst
    obtain ⟨hulen, hubyte⟩ := State.inLen_ibufByte_of_inputBytes (hinput.trans hcons)
    obtain ⟨hpass, _⟩ := decompressPassesThrough u (by omega) (hubyte ▸ hfirst)
    obtain ⟨v, hv, hvcode, _, _, _, hout⟩ := hpass hub
    exact ⟨v, hv, hvcode, hout.trans hinput⟩
  · rw [State.outputBytes_deliver _ (length_compressedBuffer_lt hshorter)] at hinput
    have hparses : Parses u.node (streamBits u.inputBytes (totalBits s.node s.inputBytes)) s.inputBytes := by
      rw [hinput, streamBits_compressedBuffer, State.node_congr hnodes]
      exact hinv.parses_flatMap_codeOf hb _
    obtain ⟨v, hv, hvcode, _, _, _, hout⟩ :=
      decompressDecodesStream u _ _ hub (State.holdsStream_of_compressedBuffer hinput) hparses
    exact ⟨v, hv, hvcode, hout⟩

end Sys2Proof.Machine
end

section
/-! PROOF. The round trip over the host port, `44_decompress.md` R182: `LOAD P; COMPRESS; MOVE; DECOMPRESS`, script line by script line. -/

namespace Sys2Proof.Machine

/-! ### Runs -/

theorem run_succ_eq_next_iff {M : Host.Core} {k : Nat} {s t : M.State} :
    M.run (k + 1) s = .next t ↔ ∃ s', M.step s = .next s' ∧ M.run k s' = .next t := by
  rw [Host.Core.run]
  cases M.step s <;> simp

theorem run_add_of_run {M : Host.Core} {a : Nat} {s t : M.State} (h : M.run a s = .next t) (b : Nat) :
    M.run (a + b) s = M.run b t := by
  induction a generalizing s with
  | zero => cases h; rw [Nat.zero_add]
  | succ a ih =>
    obtain ⟨s', hstep, hrun⟩ := run_succ_eq_next_iff.mp h
    rw [Nat.succ_add, run_succ_of_step hstep, ih hrun]

theorem runSteps_add {a : Nat} {s t : State} (h : runSteps a s = .next t) (b : Nat) : runSteps (a + b) s = runSteps b t :=
  run_add_of_run (M := core) h b

/-- What every step keeps (O11), every run keeps. -/
theorem State.Inv.runSteps {k : Nat} {s t : State} (hinv : s.Inv) (h : runSteps k s = .next t) : t.Inv := by
  induction k generalizing s with
  | zero => cases h; exact hinv
  | succ k ih =>
    obtain ⟨s', hstep, hrun⟩ := (run_succ_eq_next_iff (M := core)).mp h
    exact ih (stepKeepsInvariant s s' hinv hstep) hrun

/-! ### The script lines -/

theorem length_loadFrom (j : Nat) (bs : List Byte) : (loadFrom j bs).length = bs.length := by
  induction bs generalizing j with
  | nil => rfl
  | cons b bs ih => rw [loadFrom, List.length_cons, List.length_cons, ih]

theorem length_scriptLoad (bs : List Byte) : (scriptLoad bs).length = bs.length + 1 := by
  rw [scriptLoad, List.length_append, length_loadFrom, List.length_singleton]

/-- Reads of defined places change nothing of the core, `20_memory.md` R72. -/
theorem exists_runSteps_reads {reads rest : List HostStep}
    (hreads : ∀ e ∈ reads, ∃ a n p, e = .memRead a n ∧ locate a n = .ok p) {s : State} (hb : s.busy = false)
    (hp : s.pending = reads ++ rest) :
    ∃ d, runSteps reads.length s = .next { s with pending := rest, rdata := d } := by
  induction reads generalizing s with
  | nil =>
    subst hp
    exact ⟨s.rdata, rfl⟩
  | cons e reads ih =>
    obtain ⟨⟨a, n, p, rfl, hloc⟩, hrest⟩ := List.forall_mem_cons.mp hreads
    obtain ⟨d, hd⟩ := ih hrest (s := { s with pending := reads ++ rest, rdata := s.readPlace p }) hb rfl
    exact ⟨d, (runSteps_succ (step_memRead_of_locate hloc hb hp) _).trans hd⟩

/-- `OUT` reads `OUT_LEN` and cells of `OBUF`, `30_encoding.md` R105. -/
theorem scriptOut_reads {n : Nat} (hn : n ≤ 262144) :
    ∀ e ∈ scriptOut n, ∃ a w p, e = .memRead a w ∧ locate a w = .ok p := by
  rw [scriptOut, List.forall_mem_cons]
  refine ⟨⟨_, _, _, rfl, locate_register (by decide) (by decide)⟩, fun e he => ?_⟩
  obtain ⟨j, hj, rfl⟩ := List.mem_map.mp he
  rw [List.mem_range] at hj
  exact ⟨_, _, _, rfl, locate_obufAddr (by omega)⟩

/-- `LOAD bs` and a command: the command runs over the tree of before, with `bs` as its input. -/
theorem exists_runSteps_load_command {s : State} (hinv : s.Inv) {bs : List Byte} (hlen : bs.length < 65536) (i : Instr)
    (hp : s.pending = scriptLoad bs ++ scriptCommand i) :
    ∃ c : State, c.Inv ∧ c.SameTree s ∧ c.inputBytes = bs ∧
      ∀ t, exec i c = .next t → runSteps (scriptLoad bs ++ scriptCommand i).length s = .next t := by
  obtain ⟨u, hload, hinput, _, _, hu⟩ := loadFillsTheInput s bs (scriptCommand i) hinv.notBusy hlen hp
  have huinv := hinv.runSteps hload
  have hupending : u.pending = scriptCommand i := by rw [hu]
  have htree : u.SameTree s := by rw [hu]; exact ⟨rfl, rfl, rfl⟩
  refine ⟨{ u with pending := [], cmd := encode i }, { huinv with }, htree, hinput, fun t ht => ?_⟩
  rw [List.length_append, length_scriptLoad, runSteps_add hload]
  exact runSteps_succ ((step_write_encode huinv.notBusy hupending).trans ht) 0

/-- `MOVE bs` and a command: the reads of `OUT` come first. -/
theorem exists_runSteps_move_command {s : State} (hinv : s.Inv) {bs : List Byte} (hlen : bs.length < 65536) (i : Instr)
    (hp : s.pending = scriptMove bs ++ scriptCommand i) :
    ∃ c : State, c.Inv ∧ c.SameTree s ∧ c.inputBytes = bs ∧
      ∀ t, exec i c = .next t → runSteps (scriptMove bs ++ scriptCommand i).length s = .next t := by
  rw [scriptMove, List.append_assoc] at hp ⊢
  obtain ⟨d, hout⟩ := exists_runSteps_reads (scriptOut_reads (by omega)) hinv.notBusy hp
  obtain ⟨c, hcinv, htree, hinput, hrun⟩ := exists_runSteps_load_command (hinv.runSteps hout) hlen i rfl
  refine ⟨c, hcinv, htree, hinput, fun t ht => ?_⟩
  rw [List.length_append, runSteps_add hout]
  exact hrun t ht

/-! ### The round trip -/

/-- COMPRESS and DECOMPRESS leave the tree. -/
theorem exec_sameTree {i : Instr} {s t : State} (hi : i ≠ .build) (h : exec i s = .next t) : t.SameTree s := by
  obtain hsame | ⟨hbuild, _⟩ := exec_tree h
  · exact hsame
  · exact absurd hbuild hi

/-- Settles O48: `LOAD` gives COMPRESS the payload as input, `MOVE` gives DECOMPRESS the result, and DECOMPRESS inverts COMPRESS (O47). -/
theorem scriptRoundTrip : Obligations.ScriptRoundTrip := by
  unfold Obligations.ScriptRoundTrip
  intro s b bs hinv hb hbyte hlen
  have hplen : (b :: bs).length < 65536 := Nat.succ_lt_succ hlen
  obtain ⟨c, hcinv, ⟨hcb, _⟩, hcin, hcrun⟩ := exists_runSteps_load_command
    (s := { s with pending := scriptLoad (b :: bs) ++ scriptCommand .compress }) { hinv with } hplen _ rfl
  replace hcb : c.built = true := hcb.trans hb
  obtain ⟨hclen, hcbyte⟩ := State.inLen_ibufByte_of_inputBytes hcin
  obtain ⟨_, hsucceeds⟩ := compressRefusesHighFirstByte c hcb
  obtain ⟨t, ht, htcode⟩ := hsucceeds (.inr (hcbyte ▸ hbyte))
  obtain ⟨htb, htnodes, _⟩ := exec_sameTree (by decide) ht
  have htlen : t.outputBytes.length < 65536 := by
    obtain ⟨hle, _⟩ := compressNeverGrows c t ht
    rw [State.outputBytes, List.length_map, List.length_range]
    omega
  obtain ⟨d, _, ⟨hdb, hdnodes, _⟩, hdin, hdrun⟩ := exists_runSteps_move_command
    (s := { t with pending := scriptMove t.outputBytes ++ scriptCommand .decompress }) { hcinv.exec ht with } htlen _ rfl
  obtain ⟨u, hu, hucode, huout⟩ := decompressInvertsCompress c t d hcinv hcb (by omega) ht htcode
    (hdb.trans (htb.trans hcb)) (hdnodes.trans htnodes) hdin
  exact ⟨t, u, hcrun t ht, htcode, hdrun u hu, hucode, huout.trans hcin⟩

end Sys2Proof.Machine
end

section
/-! PROOF. The write to `CMD` and what it runs, `45_system.md` R185 to R191: the word dispatches to its command or to the illegal command,
every command completes, and the host's packet after COMPRESS. -/

namespace Sys2Proof.Machine

/-! ### Dispatch -/

/-- Settles O3: the word that decodes to a command is the command's own, and its write runs the command (`step_write_encode`). -/
theorem stepRunsWrittenCommand : Obligations.StepRunsWrittenCommand := by
  unfold Obligations.StepRunsWrittenCommand
  intro s w i rest hb hp hdecode
  obtain rfl := eq_encode_of_decode hdecode
  exact step_write_encode hb hp

/-- A command word is 32 bits, so the numbering of the table loses none of it, `30_encoding.md` R99. -/
theorem ofNat_toNat_mod (w : Word) : BitVec.ofNat 32 (w.toNat % 2 ^ 32) = w := by
  rw [Nat.mod_eq_of_lt w.isLt, BitVec.ofNat_toNat, BitVec.setWidth_eq]

theorem decodeTableWord_encode (i : Instr) : decodeTableWord 32 (encode i).toNat = some i := by
  simp only [decodeTableWord, ofNat_toNat_mod, decode_encode]

theorem State.withFetchWord_toNat (s : State) (w : Word) : s.withFetchWord 32 w.toNat = s.withCommand w := by
  rw [State.withFetchWord, ofNat_toNat_mod]

/-- Settles O4: the state has the write of the command's word as its next host step and `BUSY` 0. -/
theorem fetchWordRunsCommand : Obligations.FetchWordRunsCommand := by
  unfold Obligations.FetchWordRunsCommand
  intro s i
  refine ⟨decodeTableWord_encode i, ?_⟩
  rw [State.withFetchWord_toNat]
  exact step_write_encode (s.withCommand_busy _) (s.withCommand_pending _)

/-- A word of no command runs the illegal command, `45_system.md` R189. -/
theorem writeCmd_of_four_le {w : Word} (hw : 4 ≤ w.toNat) (s : State) : writeCmd w s = execIllegal { s with cmd := w } := by
  simp only [writeCmd, (decode_eq_error_iff w).mpr hw]

/-- Settles O5: the write reaches `CMD`, the word is rejected, and the illegal command raises its error. -/
theorem illegalWordRaises : Obligations.IllegalWordRaises := by
  unfold Obligations.IllegalWordRaises
  intro s w rest hb hp hw
  have hl : locate 0x00000 4 = .ok (.register 0) := locate_register (by decide) (by decide)
  rw [step_memWrite_of_locate hl hb hp, writePlace, writeCmd_of_four_le hw, execIllegal_eq]
  rfl

/-! ### The commands -/

/-- Settles O7: every command has an effect on every state (`exec_effect`). -/
theorem commandsAlwaysComplete : Obligations.CommandsAlwaysComplete :=
  exists_exec_eq_next

/-- Settles O18: NOP is the result clear between the start and the end of a command. -/
theorem nopClearsResults : Obligations.NopClearsResults :=
  ⟨rfl, execNop_eq⟩

/-! ### The packet after COMPRESS -/

/-- Every error of `60_exceptions.md` R201 has a nonzero `KIND`. -/
@[simp] theorem State.err_raise (s : State) (e : CommandError) : (s.raise e).err = true := by
  rw [State.err_eq_true_iff, State.raise_errcode]
  cases e <;> decide

theorem CommandError.code_ne_zero (e : CommandError) : e.code ≠ 0#16 := by
  cases e <;> decide

/-- After a command, whatever `ERRCODE` held before it, `STATUS.ERR` tells whether `ERRCODE` is 0. -/
theorem err_eq_true_iff_of_exec {i : Instr} {s t : State} (h : exec i s = .next t) : t.err = true ↔ t.errcode ≠ 0#16 := by
  obtain ⟨_, rfl⟩ | ⟨e, rfl⟩ | ⟨_, _, rfl⟩ | ⟨_, _, _, _, _, _, _, rfl⟩ := exec_cases h
  · exact iff_of_false Bool.false_ne_true (fun hne => hne rfl)
  · exact iff_of_true (State.err_raise _ e) e.code_ne_zero
  · exact iff_of_false Bool.false_ne_true (fun hne => hne rfl)
  · exact iff_of_false Bool.false_ne_true (fun hne => hne rfl)

/-- Settles O58: the host looks at `STATUS.ERR`, which after a command says whether `ERRCODE` is 0. -/
theorem packetIsTagIdResult : Obligations.PacketIsTagIdResult := by
  unfold Obligations.PacketIsTagIdResult
  intro s t clientId h
  have herr := err_eq_true_iff_of_exec h
  refine ⟨fun hcode => ?_, fun hcode => ?_⟩
  · rw [packet, if_neg (fun hset => herr.mp hset hcode)]
    rfl
  · rw [packet, if_pos (herr.mpr hcode)]

end Sys2Proof.Machine
end

section
/-! PROOF. The errors of `60_exceptions.md`: their codes, what `raise` writes and leaves, and the commands given out of sequence. -/

namespace Sys2Proof.Machine

/-- `(CAUSE << 8) | KIND`, the form in which `60_exceptions.md` R201 gives `ERRCODE`. -/
theorem CommandError.code_eq_or (e : CommandError) :
    e.code = (e.cause.setWidth 16 <<< 8) ||| e.kind.setWidth 16 := by
  rw [CommandError.code, BitVec.append_def, BitVec.shiftLeftZeroExtend_eq, BitVec.setWidth'_eq]

@[simp] theorem State.node_raise (s : State) (e : CommandError) : (s.raise e).node = s.node :=
  State.node_congr rfl

@[simp] theorem State.ibufByte_raise (s : State) (e : CommandError) : (s.raise e).ibufByte = s.ibufByte :=
  State.ibufByte_congr rfl

/-! ### Commands out of sequence, R205 -/

theorem exec_build_alreadyBuilt {s : State} (hb : s.built = true) :
    exec .build s = .next (s.beginCommand.raise .alreadyBuilt) := by
  simp [exec, execBuild, hb]

theorem exec_compress_notBuilt {s : State} (hb : s.built = false) :
    exec .compress s = .next (s.beginCommand.raise .notBuilt) := by
  simp [exec, execCompress, hb]

/-! ### The obligations -/

/-- Settles O6: an empty pending list is the idle case of `step`. -/
theorem idleKeepsState : Obligations.IdleKeepsState := by
  unfold Obligations.IdleKeepsState
  intro s hidle
  simp only [step, stepPending, hidle]

/-- Settles O19: the code in R201's form, the registers `raise` writes, its frame, and the forgotten `OBUF`. -/
theorem raiseRecordsTheError : Obligations.RaiseRecordsTheError := by
  unfold Obligations.RaiseRecordsTheError
  intro e s
  have hnode : ∀ k, (s.raise e).node k = s.node k := congrFun (s.node_raise e)
  have hibuf : ∀ j, (s.raise e).ibufByte j = s.ibufByte j := congrFun (s.ibufByte_raise e)
  have hobuf : ∀ j, (s.raise e).obuf.get? j = none := s.obuf.get?_forget
  exact ⟨e.code_eq_or, s.err_raise e, rfl, rfl, rfl, rfl, rfl, rfl, hnode, rfl, hibuf, rfl, hobuf, s.obufByte_raise e⟩

/-- Settles O20: the table of R201, row by row. -/
theorem errorCodeTable : Obligations.ErrorCodeTable :=
  ⟨rfl, rfl, rfl, rfl, rfl, rfl, rfl, rfl⟩

/-- Settles O21: each command tests `BUILT` before it looks at its input, and `raise` writes all that the result clear did. -/
theorem wrongSequenceRaises : Obligations.WrongSequenceRaises := by
  unfold Obligations.WrongSequenceRaises
  refine ⟨fun _ hb => exec_build_alreadyBuilt hb, fun i s hi hb => ?_⟩
  obtain rfl | rfl := hi
  · exact exec_compress_notBuilt hb
  · exact exec_decompress_notBuilt hb

end Sys2Proof.Machine
end

section
/-! PROOF. The pulse on `rst`, `70_reset_and_hazards.md` R230: the register page after it is that of the reset state, and the memories
are forgotten. -/

namespace Sys2Proof.Machine

/-- The register page does not show what `rst` keeps (`FREQ` and the host's steps), nor the memories. -/
theorem State.registerWord_applyReset (s : State) (k : Nat) : s.applyReset.registerWord k = State.reset.registerWord k := by
  match k with
  | 0 | 1 | 2 | 3 | 4 | 5 | 6 | _ + 7 => rfl

/-- Settles O9: `rst` is taken whatever `BUSY` is, its register page is the all-zero one of the reset state, and no memory keeps a
cell. -/
theorem resetPinClears : Obligations.ResetPinClears := by
  unfold Obligations.ResetPinClears
  intro s rest hp
  obtain ⟨hzero, _⟩ := resetRegistersZero
  exact ⟨_, step_rst hp, fun k => (State.registerWord_applyReset _ k).trans (hzero k), rfl, rfl, rfl,
    s.ibuf.get?_forget, s.obuf.get?_forget, rfl, rfl, rfl⟩

end Sys2Proof.Machine
end
